-- ==== Sys2Proof/Word.lean ====
section
/-! DEFINITION. The widths of the core's data: frame-buffer bytes, colour-map words and operands, command words
(spec/10_state.md R18, R19; spec/30_encoding.md R34). -/

namespace Sys2Proof

/-- One byte of the frame buffer or of a pattern (spec/10_state.md R19, spec/20_memory.md R28). -/
abbrev Byte := BitVec 8

/-- One word of the color map, and one 32-bit operand (spec/10_state.md R18, spec/30_encoding.md R36). -/
abbrev Word := BitVec 32

/-- One command word `cmd` of 67 bits (spec/30_encoding.md R34). -/
abbrev CmdWord := BitVec 67

end Sys2Proof
end

