-- ==== Sys2Proof/Config.lean ====
section
/-! DEFINITION. The elaboration-time parameters of one instance as one record (spec/00_scope.md R7), the parameters derived
from them (R8), the default tables (spec/40_symbol_encoder.md R44), and the free values of the model: opaque constants
with no body, for what spec/10_state.md R24 and spec/93_implementation_defined.md U4, U5 leave without a value. -/

namespace Sys2Proof

/-- `VARIANT`: the two named instances of the general design and any third one (spec/00_scope.md R2, R7; D27). -/
inductive Variant where
  | A
  | B
  | custom
  deriving DecidableEq, Repr

/-- `TABLE[0..3]`, the constant memory of four patterns, byte 0 of each pattern first
(spec/10_state.md R20, spec/20_memory.md R25). -/
structure PatternTable where
  p0 : List Byte
  p1 : List Byte
  p2 : List Byte
  p3 : List Byte
  deriving DecidableEq, Repr

/-- What HOST does when a submission fails (spec/60_exceptions.md R78): the reference design does not look at the
result; the recommended behaviour skips the tick, and whether the counter and the timestamp are then updated is left
open (spec/91_not_in_source.md N13), so both are parameters. -/
inductive ErrorPolicy where
  | ignoreResult
  | skipTick (updateCounter updateTimestamp : Bool)
  deriving DecidableEq, Repr

/-- The parameters of an instance (spec/00_scope.md R7; spec/10_state.md R17). The last two are parameters of the
TRANSPORT and HOST models (spec/93_implementation_defined.md U13, U6). -/
structure Config where
  variant : Variant
  E : Nat
  N : Nat
  table : PatternTable
  resetBytes : Nat
  fSpi : Nat
  intervalMs : Nat
  maxXfer : Nat
  pin : Nat
  idleLevel : Bool
  blocking : Bool
  errorPolicy : ErrorPolicy
  deriving DecidableEq, Repr

namespace Config

/-- `PAT_BYTES = E / 4` (spec/00_scope.md R8). -/
def patBytes (c : Config) : Nat := c.E / 4

/-- `BYTES_PER_LED = 12 * PAT_BYTES` (spec/00_scope.md R8). -/
def bytesPerLed (c : Config) : Nat := 12 * c.patBytes

/-- `FB_BYTES = RESET_BYTES + BYTES_PER_LED * N` (spec/00_scope.md R8). -/
def fbBytes (c : Config) : Nat := c.resetBytes + c.bytesPerLed * c.N

/-- `LED_BASE(j) = RESET_BYTES + BYTES_PER_LED * j` (spec/00_scope.md R8). -/
def ledBase (c : Config) (j : Nat) : Nat := c.resetBytes + c.bytesPerLed * j

/-- `TABLE_A_DEFAULT` (spec/40_symbol_encoder.md R44; the spec's own default, D5). -/
def tableA : PatternTable where
  p0 := [0xF0#8, 0x0F#8, 0x00#8]
  p1 := [0xF0#8, 0x0F#8, 0xF0#8]
  p2 := [0xFF#8, 0x0F#8, 0x00#8]
  p3 := [0xFF#8, 0x0F#8, 0xF0#8]

/-- `TABLE_B_DEFAULT` (spec/40_symbol_encoder.md R44; the spec's own default, D5). -/
def tableB : PatternTable where
  p0 := [0x88#8]
  p1 := [0x8E#8]
  p2 := [0xE8#8]
  p3 := [0xEE#8]

/-- The configuration of `State.reset`: that of program P5 (spec/95_test_vectors.md), variant B with every default of
spec/00_scope.md R7. DESIGN CHOICE (log 1): the spec gives no value for VARIANT, N, MAX_XFER, PIN, IDLE_LEVEL, the
transport's blocking and the error policy. No statement rests on it. -/
def default : Config where
  variant := .B
  E := 4
  N := 144
  table := tableB
  resetBytes := 32
  fSpi := 3200000
  intervalMs := 100
  maxXfer := 1760
  pin := 0
  idleLevel := false
  blocking := false
  errorPolicy := .ignoreResult

/-- FREE VALUE: the word a read of a never-written `CM` entry gives, one for each draw (spec/10_state.md R24). -/
opaque drawWord : Nat → Word

/-- FREE VALUE: the byte a read of a never-written `FB` byte or byte of `PAT` gives, one for each draw
(spec/10_state.md R24). -/
opaque drawByte : Nat → Byte

/-- FREE VALUE: whether the transport reads its next byte before the core performs its next write, while both are at
work (spec/93_implementation_defined.md U4: the interleaving is not given). -/
opaque transportFirst : Nat → Bool

end Config

/-- `TS_MAX = 2^TS_W - 1` with `TS_W = 32` (spec/60_exceptions.md R74). -/
def tsMax : Nat := 2 ^ 32 - 1

end Sys2Proof
end

