-- ==== Sys2Proof/Syntax.lean ====
section
/-! DEFINITION. The operations of the core, one constructor for each row of spec/opcode_table.json
(spec/30_encoding.md R33), with the operands of R36 at exactly their widths. -/

namespace Sys2Proof

/-- A decoded command. Operand widths are those of spec/30_encoding.md R36, so no operand value outside the
encoding's range can be written down; bits an operation does not use (R39) do not appear. -/
inductive Instr where
  /-- opcode 0 -/
  | nop
  /-- opcode 1; `sym = arg0[1:0]` -/
  | enc (sym : BitVec 2)
  /-- opcode 2 -/
  | packrst
  /-- opcode 3; `off = arg0`, `color = arg1` -/
  | packclr (off color : Word)
  /-- opcode 4; `offset = arg0` -/
  | updmap (offset : Word)
  /-- opcode 5 -/
  | packfrm
  /-- opcode 6; `offset = arg0` -/
  | build (offset : Word)
  /-- opcode 7, reserved -/
  | reserved7
  deriving DecidableEq, Repr

end Sys2Proof
end

