-- ==== Sys2Proof/Machine/State.lean ====
section
/-! DEFINITION. The state of the three agents as plain data (spec/10_state.md R13, R21, R22), the reasons a step can
stop, and the state after reset (spec/10_state.md R23). -/

namespace Sys2Proof.Machine

/-- The frame buffer's contents written since reset: strictly rising addresses; an address not listed holds an
unspecified value (spec/10_state.md R19, R24). -/
abbrev FrameBuf := List Host.Cell

/-- The color map's entries written since reset: strictly rising indices; an index not listed holds an unspecified
value (spec/10_state.md R18, R24). -/
abbrev ColorMap := List (Nat × Word)

/-- The sequencer's private counters while an operation is in progress, with the operands sampled at acceptance
(spec/10_state.md R21, spec/30_encoding.md R35). The phases map, reset and colour are R21's. -/
inductive Sequencer where
  /-- Nothing is left to write: NOP, a refused PACKCLR, the reserved opcode. -/
  | finish
  /-- ENC: one write of `PAT`. -/
  | latch (sym : BitVec 2)
  /-- Phase `map`: the color-map index `i`; `thenPack` for BUILD. -/
  | map (offset : Word) (i : Nat) (thenPack : Bool)
  /-- Phase `reset`: the write pointer; `thenColour` for PACKFRM and BUILD. -/
  | reset (wp : Nat) (thenColour : Bool)
  /-- PACKCLR at `base`: the pair index `k` and the write pointer. -/
  | packClr (base : Nat) (color : Word) (k wp : Nat)
  /-- Phase `colour` of PACKFRM and BUILD: the LED index `j`, its color, the pair index `k`, the write pointer. -/
  | packLed (j : Nat) (color : Word) (k wp : Nat)
  deriving DecidableEq, Repr

/-- A transfer in flight, `xfer_pending` (spec/10_state.md R22(b), spec/60_exceptions.md R73): the next address to
read, the length, and what a core reset in mid transfer left in `FB` for this transfer to go on reading
(spec/70_reset_and_hazards.md R84(b)). -/
structure Transfer where
  next : Nat
  length : Nat
  held : FrameBuf
  deriving DecidableEq, Repr

/-- The arguments of the transport's `configure(clock_rate, max_transfer_size)` (spec/60_exceptions.md R73). -/
structure BusConfig where
  fSpi : Nat
  maxXfer : Nat
  deriving DecidableEq, Repr

/-- The scheduler's two states (spec/60_exceptions.md R75). -/
inductive HostPhase where
  | idle
  | transmitting
  deriving DecidableEq, Repr

/-- What happens next outside the core, as data (guide: an input is held in State as a list the step reads). -/
inductive Event where
  /-- HOST issues a command and waits for its completion (spec/30_encoding.md R35, last sentences). -/
  | command (w : CmdWord)
  /-- One rising edge of `clk` with these inputs; `work` is how many of its writes a busy core performs in this cycle,
  which no rule fixes (spec/30_encoding.md R35, spec/70_reset_and_hazards.md R83, R96). -/
  | edge (rst valid : Bool) (cmd : CmdWord) (work : Nat)
  /-- HOST asserts `rst` (spec/30_encoding.md R41, spec/70_reset_and_hazards.md R83). -/
  | reset
  /-- HOST waits until the core is ready (spec/60_exceptions.md R76, "waiting for it to complete"). -/
  | await
  /-- HOST reads `FB[a]` through `fb_raddr`/`fb_rdata` (spec/10_state.md R19). -/
  | readFb (a : Nat)
  /-- HOST reads `CM[i]` through `cm_raddr`/`cm_rdata` (spec/10_state.md R18). -/
  | readCm (i : Nat)
  /-- HOST reads `pat_out` (spec/10_state.md R14). -/
  | readPat
  /-- HOST calls the transport's `configure` with `(F_SPI, MAX_XFER)`, the instance's constants
  (spec/60_exceptions.md R73, spec/70_reset_and_hazards.md R85(3)). -/
  | configure
  /-- HOST calls the transport's `begin` with `PIN`, the instance's constant (spec/60_exceptions.md R73). -/
  | beginPins
  /-- HOST calls `transfer(FB, null, length)`; `ok` is the transport's answer (spec/60_exceptions.md R73, R78). -/
  | transfer (length : Nat) (ok : Bool)
  /-- HOST waits until no transfer is in flight: held in a blocking `transfer` until the last byte has been read
  (spec/60_exceptions.md R73, spec/93_implementation_defined.md U13), or of its own accord, for a background transfer.
  DESIGN CHOICE (log 21): that it can wait for a background one; spec/20_memory.md R31 says the source gives no
  primitive for that. -/
  | awaitTransfer
  /-- TRANSPORT reads the next byte of the transfer in flight (spec/60_exceptions.md R73). -/
  | xferRead
  /-- The external loop polls the scheduler when the millisecond counter shows `now`; `ok` is the answer the transport
  will give if this poll submits (spec/60_exceptions.md R75 to R78). -/
  | poll (now : BitVec 32) (ok : Bool)
  /-- The end of a tick: counter, timestamp, back to Idle (spec/60_exceptions.md R76 steps 4 to 6). -/
  | endTick (now : BitVec 32) (ok : Bool)
  deriving DecidableEq, Repr

/-- The whole state. The first block is CORE's (spec/10_state.md R13), then HOST's and TRANSPORT's (R22), then the
model's own bookkeeping. -/
structure State where
  /-- the instance's constants (spec/00_scope.md R7) -/
  cfg : Config
  /-- `CM` (spec/10_state.md R18) -/
  cm : ColorMap
  /-- `FB` (spec/10_state.md R19) -/
  fb : FrameBuf
  /-- `PAT` as its bytes, byte 0 the most significant (spec/10_state.md R14) -/
  pat : List Byte
  /-- `STATUS` (spec/10_state.md R16) -/
  status : BitVec 3
  /-- the sequencer, idle when none (spec/10_state.md R21) -/
  seq : Option Sequencer
  /-- the output `cmd_done` (spec/30_encoding.md R35) -/
  cmdDone : Bool
  /-- HOST: last-transfer timestamp (spec/60_exceptions.md R74) -/
  lastTs : BitVec 32
  /-- HOST: frame counter (spec/60_exceptions.md R74) -/
  frameCounter : BitVec 32
  /-- HOST: Idle or Transmitting (spec/60_exceptions.md R75) -/
  hostPhase : HostPhase
  /-- HOST: the command it holds on the command port (`cmd_valid`, `cmd_op`, `cmd_arg0`, `cmd_arg1`) that the core has
  not accepted yet, none where it holds none (spec/30_encoding.md R34, R35, spec/70_reset_and_hazards.md R90; log 20) -/
  offered : Option CmdWord
  /-- HOST: the byte last read on `fb_rdata` (spec/10_state.md R19) -/
  fbRdata : Byte
  /-- HOST: the word last read on `cm_rdata` (spec/10_state.md R18) -/
  cmRdata : Word
  /-- HOST: what was last read on `pat_out` (spec/10_state.md R14) -/
  patOut : List Byte
  /-- TRANSPORT: the arguments of `configure`, none before the call (spec/60_exceptions.md R73) -/
  busConfig : Option BusConfig
  /-- TRANSPORT: the argument of `begin`, none before the call (spec/60_exceptions.md R73) -/
  busPin : Option Nat
  /-- TRANSPORT: the transfer in flight (spec/10_state.md R22(b)) -/
  xfer : Option Transfer
  /-- TRANSPORT: the bytes emitted so far, oldest first (spec/00_scope.md R12) -/
  wire : List Byte
  /-- model: `ENC` has written `PAT` since reset (spec/10_state.md R24) -/
  patWritten : Bool
  /-- model: how many free values have been drawn (spec/10_state.md R24) -/
  draws : Nat
  /-- model: what the outside does next, in order -/
  inputs : List Event
  deriving DecidableEq, Repr

/-- Why the machine stops with a fault. -/
inductive Fault where
  /-- An access to an address of `FB` at or above `FB_BYTES`, which does not exist (spec/10_state.md R19): raised by
  HOST's read port and by a transfer longer than the buffer, never by an instruction. Safe. -/
  | noSuchFbAddress
  /-- An access to an index of `CM` at or above `N`, which does not exist (spec/10_state.md R18): raised by HOST's read
  port, never by an instruction. Safe. -/
  | noSuchCmIndex
  deriving DecidableEq, Repr

/-- Why the model gives a step no meaning. -/
inductive Refusal where
  /-- The instruction has no meaning in this model: raised by `exec` alone; no arm does. Safe. -/
  | notModelled (mnemonic : String)
  /-- A transfer before `configure` and `begin`: the transport's behaviour there is not given
  (spec/70_reset_and_hazards.md R85(3)). Raised by `Event.transfer`. Safe. -/
  | transportNotReady
  /-- A transfer longer than the transport's maximum, "not modelled at all" (spec/93_implementation_defined.md U3).
  Raised by `Event.transfer`. Safe. -/
  | overlongTransfer
  /-- A second transfer while one is in flight: the transport's behaviour there is not given
  (spec/60_exceptions.md R73). Raised by `Event.transfer`. Safe. -/
  | transferPending
  /-- A second `configure` or `begin`: each "is called once", and what the black box does at another call is not given
  (spec/60_exceptions.md R73). Raised by `Event.configure` and `Event.beginPins`. Safe. -/
  | transportAlreadySetUp
  /-- The source's `ConfigurationError`: the configuration is not well formed, so there is no such instance
  (spec/00_scope.md R9, spec/60_exceptions.md R63(a), spec/93_implementation_defined.md U9). Raised when an instance is
  built and by a step of a state that holds such a configuration; by no instruction. Safe. -/
  | configurationError
  deriving DecidableEq, Repr

/-- The state right after reset of an instance with configuration `c` (spec/10_state.md R23,
spec/60_exceptions.md R74): `STATUS = 0b000`, the sequencer idle, memories with nothing written, the tick clock zero.
DESIGN CHOICE: the value standing in `PAT` (log 3), `cmd_done` and the read-port values (log 4), the transport idle with
nothing emitted, the scheduler Idle and no command on the port (log 5), no pending input (log 6), `draws = 0` (log 2). -/
def State.resetOf (c : Config) : State where
  cfg := c
  cm := []
  fb := []
  pat := List.replicate c.patBytes 0#8
  status := 0b000#3
  seq := none
  cmdDone := false
  lastTs := 0#32
  frameCounter := 0#32
  hostPhase := .idle
  offered := none
  fbRdata := 0#8
  cmRdata := 0#32
  patOut := List.replicate c.patBytes 0#8
  busConfig := none
  busPin := none
  xfer := none
  wire := []
  patWritten := false
  draws := 0
  inputs := []

/-- The machine right after reset, at the configuration of `Config.default` (log 1). -/
def State.reset : State := State.resetOf Config.default

end Sys2Proof.Machine
end

