-- ==== Sys2Proof/Machine/Flags.lean ====
section
/-! DEFINITION. The bits of STATUS (spec/10_state.md R16). There are no arithmetic flags. -/

namespace Sys2Proof.Machine

/-- `BUSY`, bit 0. -/
def busyBit (st : BitVec 3) : Bool := st.getLsbD 0

/-- `ERR_BOUNDS`, bit 1. -/
def boundsBit (st : BitVec 3) : Bool := st.getLsbD 1

/-- `ERR_RSVD`, bit 2. -/
def rsvdBit (st : BitVec 3) : Bool := st.getLsbD 2

/-- The field `ERR = STATUS[2:1]`. -/
def errField (st : BitVec 3) : BitVec 2 := st.extractLsb' 1 2

/-- `BUSY <- 1`, at acceptance (spec/30_encoding.md R35). -/
def setBusy (st : BitVec 3) : BitVec 3 := st ||| 0b001#3

/-- `BUSY <- 0`, at completion (spec/30_encoding.md R35). -/
def clearBusy (st : BitVec 3) : BitVec 3 := st &&& 0b110#3

/-- `cmd_ready = NOT STATUS.BUSY` (spec/30_encoding.md R35). -/
def cmdReady (st : BitVec 3) : Bool := !busyBit st

/-- The two errors the core can record (spec/60_exceptions.md R64), with the `info` of `raise`
(spec/00_scope.md R11), which is not stored. -/
inductive CoreError where
  | bounds (off : Nat)
  | reservedOp (op : BitVec 3)
  deriving DecidableEq, Repr

/-- The error's bit in STATUS set; a set bit stays set (spec/60_exceptions.md R64, R67). -/
def setError (e : CoreError) (st : BitVec 3) : BitVec 3 :=
  match e with
  | .bounds _ => st ||| 0b010#3
  | .reservedOp _ => st ||| 0b100#3

end Sys2Proof.Machine
end

