-- ==== Sys2Proof/Machine/Operands.lean ====
section
/-! DEFINITION. The arithmetic on operands: table indices out of a color (spec/30_encoding.md R37), the Symbol Encoder
(spec/40_symbol_encoder.md R42) and the color of one LED (spec/42_color_map.md R52, R53, R55, R56). -/

namespace Sys2Proof.Machine

/-- `c = color & 0xFFFFFF` (spec/30_encoding.md R37, spec/41_frame_packer.md R48). -/
def color24 (color : Word) : Word := color &&& 0x00FFFFFF#32

/-- `s_k = (c >> (22 - 2*k)) & 0b11` (spec/30_encoding.md R37). -/
def pairIndex (color : Word) (k : Nat) : BitVec 2 :=
  (color24 color >>> (22 - 2 * k)).setWidth 2

/-- `SE(s) = TABLE[s]` (spec/40_symbol_encoder.md R42). -/
def symbolEncoder (c : Config) (s : BitVec 2) : List Byte :=
  match s.toNat with
  | 0 => c.table.p0
  | 1 => c.table.p1
  | 2 => c.table.p2
  | _ => c.table.p3

/-- `val = (i + offset) mod N`, the sum exact (spec/42_color_map.md R52, R55). -/
def colorVal (N offset i : Nat) : Nat := (i + offset) % N

/-- `intensity = (val div 2) & 0xFF`, truncated before it is shifted (spec/42_color_map.md R56). -/
def colorIntensity (val : Nat) : Nat := val / 2 % 256

/-- `Color(N, offset, i) = intensity << (8 * (val mod 3))`, bits 31-24 zero (spec/42_color_map.md R52). -/
def colorAt (N offset i : Nat) : Word :=
  BitVec.ofNat 32 (colorIntensity (colorVal N offset i) <<< (8 * (colorVal N offset i % 3)))

/-- The `BYTES_PER_LED` bytes of one LED: the twelve patterns of its color, G, R, B, most significant pair first
(spec/30_encoding.md R37, spec/20_memory.md R29). -/
def ledBytes (c : Config) (color : Word) : List Byte :=
  (List.range 12).flatMap fun k => symbolEncoder c (pairIndex color k)

/-- The whole frame for the colors `col 0 .. col (N-1)`: the zero reset region, then the LEDs in ascending order
(spec/20_memory.md R29). -/
def frameBytes (c : Config) (col : Nat → Word) : List Byte :=
  List.replicate c.resetBytes 0#8 ++ (List.range c.N).flatMap fun j => ledBytes c (col j)

end Sys2Proof.Machine
end

