-- ==== Sys2Proof/Machine/Ops.lean ====
section
/-! DEFINITION. The named operations over memory and registers (spec/00_scope.md R11), taking an error
(spec/60_exceptions.md R67), and the beginning and end every operation has (spec/30_encoding.md R35). There is no return
from an error (spec/60_exceptions.md R71). -/

namespace Sys2Proof.Machine

/-- The canonical form of a sparse memory: strictly rising keys. -/
abbrev Memory.wf {α : Type} (m : List (Nat × α)) : Prop := (m.map Prod.fst).Pairwise (· < ·)

/-- Every listed key exists: it is below the size of the space. -/
abbrev Memory.below {α : Type} (m : List (Nat × α)) (size : Nat) : Prop := ∀ x ∈ m, x.1 < size

/-- What has been written at a key since reset; none where nothing has (spec/10_state.md R24). -/
def memRead {α : Type} : List (Nat × α) → Nat → Option α
  | [], _ => none
  | (b, w) :: m, a => if a = b then some w else memRead m a

/-- One write, keeping the canonical form. What an unlisted key reads as is no fixed value, so every written key is
listed. -/
def memWrite {α : Type} : List (Nat × α) → Nat → α → List (Nat × α)
  | [], a, v => [(a, v)]
  | (b, w) :: m, a, v =>
    if a < b then (a, v) :: (b, w) :: m
    else if a = b then (a, v) :: m
    else (b, w) :: memWrite m a v

/-- `for i = 0 .. n-1, ascending` (the loops of spec/41_frame_packer.md and spec/42_color_map.md). -/
def forUp {σ : Type} : Nat → (Nat → σ → σ) → σ → σ
  | 0, _, s => s
  | n + 1, f, s => f n (forUp n f s)

/-- The n-fold iteration of an operation. -/
def repeatOp {σ : Type} (f : σ → σ) : Nat → σ → σ
  | 0, s => s
  | n + 1, s => repeatOp f n (f s)

/-- `CM[i] <- v` (spec/00_scope.md R11). -/
def writeCm (i : Nat) (v : Word) (s : State) : State := { s with cm := memWrite s.cm i v }

/-- `FB[a] <- b` (spec/00_scope.md R11). -/
def writeFb (a : Nat) (b : Byte) (s : State) : State := { s with fb := memWrite s.fb a b }

/-- `MemWrite(addr, n, v)`: the bytes of `v` from `addr` upwards, byte 0 first (spec/00_scope.md R11). -/
def memWriteSeq : Nat → List Byte → FrameBuf → FrameBuf
  | _, [], m => m
  | a, b :: bs, m => memWriteSeq (a + 1) bs (memWrite m a b)

/-- `x[PAT] <- p` (spec/40_symbol_encoder.md R45). -/
def writePat (p : List Byte) (s : State) : State := { s with pat := p, patWritten := true }

/-- `CM[i]` at draw number `draw`: the word written since reset, else that free value (spec/10_state.md R24). -/
def cmEntry (cm : ColorMap) (i draw : Nat) : Word := (memRead cm i).getD (Config.drawWord draw)

/-- `FB[a]` at draw number `draw`: the byte written since reset, else that free value (spec/10_state.md R24). -/
def fbByte (fb : FrameBuf) (a draw : Nat) : Byte := (memRead fb a).getD (Config.drawByte draw)

/-- The bytes of `PAT` at draw number `draw`: those ENC wrote since reset, else free values (spec/10_state.md R24). -/
def patBytesRead (s : State) (draw : Nat) : List Byte :=
  if s.patWritten then s.pat else (List.range s.cfg.patBytes).map fun t => Config.drawByte (draw + t)

/-- Use up `n` draw numbers. Every read takes fresh ones, whether or not it needs them, so that no two reads of
never-written state share a free value (spec/10_state.md R24). -/
def useDraws (n : Nat) (s : State) : State := { s with draws := s.draws + n }

/-- `PAT` as one number of `8*PAT_BYTES` bits, byte 0 most significant (spec/10_state.md R14). -/
def patNumber (p : List Byte) : Nat := p.foldl (fun n b => n * 256 + b.toNat) 0

/-- Taking an error: its STATUS bit is set, nothing else happens; the caller performs none of the operation's writes
(spec/60_exceptions.md R67, R70). -/
def raiseError (e : CoreError) (s : State) : State := { s with status := setError e s.status }

/-- What HOST holds on the command port after this: a command not accepted yet, or none
(spec/70_reset_and_hazards.md R90). -/
def holdPort (o : Option CmdWord) (s : State) : State := { s with offered := o }

/-- Acceptance of a command: `BUSY <- 1` (spec/30_encoding.md R35). -/
def accept (s : State) : State := { s with status := setBusy s.status }

/-- Completion of an operation: `BUSY <- 0` and the `cmd_done` pulse (spec/30_encoding.md R35). -/
def complete (s : State) : State := { s with status := clearBusy s.status, cmdDone := true }

/-- A whole operation seen at its boundary: accepted, carried out, completed (spec/00_scope.md R6). Every operation of
this core completes (spec/43_composite_system.md R59). -/
def runOperation (f : State → State) (s : State) : Host.Outcome State Fault Refusal :=
  .next (complete (f (accept s)))

end Sys2Proof.Machine
end

