-- ==== Sys2Proof/Machine/MapGenerator.lean ====
section
/-! DEFINITION. The Color Map Generator's operation (spec/42_color_map.md). -/

namespace Sys2Proof.Machine

/-- `UPDMAP(offset)`: `CM[i] <- Color(N, offset, i)`, ascending (spec/42_color_map.md R52). -/
def updateMap (offset : Word) (s : State) : State :=
  { s with cm := forUp s.cfg.N (fun i m => memWrite m i (colorAt s.cfg.N offset.toNat i)) s.cm }

/-- `UPDMAP offset` (spec/42_color_map.md R52). -/
def execUpdmap (offset : Word) (s : State) : Host.Outcome State Fault Refusal :=
  runOperation (updateMap offset) s

end Sys2Proof.Machine
end

