-- ==== Sys2Proof/Machine/Packer.lean ====
section
/-! DEFINITION. The Frame Packer's operations (spec/41_frame_packer.md). -/

namespace Sys2Proof.Machine

/-- `PACKRST()`: zero `FB[0 .. RESET_BYTES-1]`, ascending (spec/41_frame_packer.md R47). -/
def packReset (s : State) : State :=
  { s with fb := forUp s.cfg.resetBytes (fun a m => memWrite m a 0x00#8) s.fb }

/-- The twelve pattern writes of one color at `off`, ascending (spec/41_frame_packer.md R48,
spec/30_encoding.md R37). -/
def writePatterns (c : Config) (off : Nat) (color : Word) (m : FrameBuf) : FrameBuf :=
  forUp 12 (fun k => memWriteSeq (off + c.patBytes * k) (symbolEncoder c (pairIndex color k))) m

/-- The pattern writes on the machine's frame buffer. -/
def packPatterns (off : Nat) (color : Word) (s : State) : State :=
  { s with fb := writePatterns s.cfg off color s.fb }

/-- The sub-range of one LED at `off` fits the buffer, in exact arithmetic (spec/41_frame_packer.md R48). -/
def fitsBuffer (c : Config) (off : Nat) : Bool := decide (off + c.bytesPerLed ≤ c.fbBytes)

/-- `PACKCLR(off, color)`: the bounds test before the first write, then the patterns (spec/41_frame_packer.md R48,
spec/60_exceptions.md R65). -/
def packColor (off : Nat) (color : Word) (s : State) : State :=
  if fitsBuffer s.cfg off then packPatterns off color s else raiseError (.bounds off) s

/-- The colors PACKFRM reads: `CM[j]`, each entry once (spec/41_frame_packer.md R49), at draw numbers
`draws, draws+1, …`. -/
def mapColor (s : State) (j : Nat) : Word := cmEntry s.cm j (s.draws + j)

/-- `PACKFRM()`: the reset region, then LED 0 to LED `N-1` (spec/41_frame_packer.md R49). The bounds test of PACKCLR is
left out because it never fires here (R49, "Errors raised: none"); a statement says that the result is that of PACKRST
and `N` PACKCLRs. -/
def packFrame (s : State) : State :=
  { packReset s with
    fb := forUp s.cfg.N (fun j => writePatterns s.cfg (s.cfg.ledBase j) (mapColor s j)) (packReset s).fb
    draws := s.draws + s.cfg.N }

/-- `PACKRST` (spec/41_frame_packer.md R47). -/
def execPackrst (s : State) : Host.Outcome State Fault Refusal := runOperation packReset s

/-- `PACKCLR off, color` (spec/41_frame_packer.md R48). -/
def execPackclr (off color : Word) (s : State) : Host.Outcome State Fault Refusal :=
  runOperation (packColor off.toNat color) s

/-- `PACKFRM` (spec/41_frame_packer.md R49). -/
def execPackfrm (s : State) : Host.Outcome State Fault Refusal := runOperation packFrame s

end Sys2Proof.Machine
end

