-- ==== Sys2Proof/Machine/Composite.lean ====
section
/-! DEFINITION. The composite and system operations (spec/43_composite_system.md). -/

namespace Sys2Proof.Machine

/-- `BUILD(offset)`: exactly UPDMAP followed by PACKFRM (spec/43_composite_system.md R57). -/
def buildFrame (offset : Word) (s : State) : State := packFrame (updateMap offset s)

/-- `NOP` (spec/43_composite_system.md R58). -/
def execNop (s : State) : Host.Outcome State Fault Refusal := runOperation (fun t => t) s

/-- `BUILD offset` (spec/43_composite_system.md R57). -/
def execBuild (offset : Word) (s : State) : Host.Outcome State Fault Refusal :=
  runOperation (buildFrame offset) s

/-- The reserved opcode: `raise ReservedOp(7)` (spec/43_composite_system.md R60). -/
def execReserved7 (s : State) : Host.Outcome State Fault Refusal :=
  runOperation (raiseError (.reservedOp 7#3)) s

end Sys2Proof.Machine
end

