-- ==== Sys2Proof/Machine/Encoder.lean ====
section
/-! DEFINITION. The Symbol Encoder's operation (spec/40_symbol_encoder.md). -/

namespace Sys2Proof.Machine

/-- `x[PAT] <- SE(sym)` (spec/40_symbol_encoder.md R45). -/
def encodeSymbol (sym : BitVec 2) (s : State) : State := writePat (symbolEncoder s.cfg sym) s

/-- `ENC sym` (spec/40_symbol_encoder.md R45). -/
def execEnc (sym : BitVec 2) (s : State) : Host.Outcome State Fault Refusal :=
  runOperation (encodeSymbol sym) s

end Sys2Proof.Machine
end

