-- ==== Sys2Proof/Machine/Dispatch.lean ====
section
/-! DEFINITION. One arm for each operation of spec/30_encoding.md R33. -/

namespace Sys2Proof.Machine

def exec (i : Instr) (s : State) : Host.Outcome State Fault Refusal :=
  match i with
  | .nop => Sys2Proof.Machine.execNop s
  | .enc sym => Sys2Proof.Machine.execEnc sym s
  | .packrst => Sys2Proof.Machine.execPackrst s
  | .packclr off color => Sys2Proof.Machine.execPackclr off color s
  | .updmap offset => Sys2Proof.Machine.execUpdmap offset s
  | .packfrm => Sys2Proof.Machine.execPackfrm s
  | .build offset => Sys2Proof.Machine.execBuild offset s
  | .reserved7 => Sys2Proof.Machine.execReserved7 s

end Sys2Proof.Machine
end

