-- ==== Sys2Proof/Decode.lean ====
section
/-! DEFINITION. The decoder of command words (spec/30_encoding.md R33, R34, R36, R39), total on every 67-bit word and
refusing by name a number that is none, and after it the encoder. -/

namespace Sys2Proof

/-- `op = cmd[66:64]` (spec/30_encoding.md R34). -/
def opField (w : CmdWord) : BitVec 3 := w.extractLsb' 64 3

/-- `arg1 = cmd[63:32]` (spec/30_encoding.md R34). -/
def arg1Field (w : CmdWord) : Word := w.extractLsb' 32 32

/-- `arg0 = cmd[31:0]` (spec/30_encoding.md R34). -/
def arg0Field (w : CmdWord) : Word := w.extractLsb' 0 32

/-- `sym = arg0[1:0]`: taking two bits is the masking the Symbol Encoder's callers owe it
(spec/30_encoding.md R36, spec/70_reset_and_hazards.md R89). -/
def symField (arg0 : Word) : BitVec 2 := arg0.extractLsb' 0 2

/-- Opcode map of spec/30_encoding.md R33, operand fields of R36; unused operand bits are ignored (R39). Every one of
the eight opcodes decodes, the reserved one too: it is accepted like any other (R38). -/
def decodeWord (w : CmdWord) : Instr :=
  match (opField w).toNat with
  | 0 => .nop
  | 1 => .enc (symField (arg0Field w))
  | 2 => .packrst
  | 3 => .packclr (arg0Field w) (arg1Field w)
  | 4 => .updmap (arg0Field w)
  | 5 => .packfrm
  | 6 => .build (arg0Field w)
  | _ => .reserved7

/-- Why a number is not a command. -/
inductive DecodeError where
  /-- The number needs more than the 67 bits of the one command format (spec/30_encoding.md R34). Safe: refused. -/
  | tooWide
  deriving DecidableEq, Repr

/-- Decode a number: the command word it is, or the name of what is wrong with it. -/
def decode (w : Nat) : Except DecodeError Instr :=
  if w < 2 ^ 67 then .ok (decodeWord (BitVec.ofNat 67 w)) else .error .tooWide

/-- The command word `{op, arg1, arg0}` (spec/30_encoding.md R34). -/
def assemble (op : BitVec 3) (arg1 arg0 : Word) : CmdWord := op ++ (arg1 ++ arg0)

/-- The opcode of an operation (spec/30_encoding.md R33). -/
def opcodeOf : Instr → BitVec 3
  | .nop => 0#3
  | .enc _ => 1#3
  | .packrst => 2#3
  | .packclr _ _ => 3#3
  | .updmap _ => 4#3
  | .packfrm => 5#3
  | .build _ => 6#3
  | .reserved7 => 7#3

/-- The command word of an operation, unused operand bits zero (spec/30_encoding.md R33, R34, R36, R40). -/
def encode : Instr → CmdWord
  | .nop => assemble 0#3 0#32 0#32
  | .enc sym => assemble 1#3 0#32 (sym.setWidth 32)
  | .packrst => assemble 2#3 0#32 0#32
  | .packclr off color => assemble 3#3 color off
  | .updmap offset => assemble 4#3 0#32 offset
  | .packfrm => assemble 5#3 0#32 0#32
  | .build offset => assemble 6#3 0#32 offset
  | .reserved7 => assemble 7#3 0#32 0#32

/-- A table row's word of `nbits` bits as a number: the bits above are zero. -/
def tableWord (nbits w : Nat) : Nat := w % 2 ^ nbits

/-- What this decoder reads from a word numbered as spec/opcode_table.json numbers it (bit 0 is `arg0[0]`, bit 66 is
`op[2]`); none where the word is too wide. -/
def decodeTableWord (nbits w : Nat) : Option Instr :=
  match decode (tableWord nbits w) with
  | .ok i => some i
  | .error _ => none

end Sys2Proof
end

