-- ==== Sys2Proof/Machine/Engine.lean ====
section
/-! DEFINITION. The core write by write: the sequencer's private counters (spec/10_state.md R21), acceptance at a clock
edge (spec/30_encoding.md R35) and reset (spec/70_reset_and_hazards.md R83, R84). The operation-level meanings are the
other view of the same machine; a statement says the two agree. -/

namespace Sys2Proof.Machine

/-- The operation in progress completes and the sequencer goes idle (spec/30_encoding.md R35). -/
def finishSequencer (s : State) : State := complete { s with seq := none }

/-- The byte at the write pointer: byte `wp - (base + PAT_BYTES*k)` of pattern `k`
(spec/41_frame_packer.md R48, effective addresses). -/
def slotByte (c : Config) (base : Nat) (color : Word) (k wp : Nat) : Byte :=
  (symbolEncoder c (pairIndex color k)).getD (wp - (base + c.patBytes * k)) 0#8

/-- The pair index and write pointer after one byte; none once the twelfth pattern is complete. -/
def nextPair (c : Config) (base k wp : Nat) : Option (Nat × Nat) :=
  if wp + 1 < base + c.patBytes * (k + 1) then some (k, wp + 1)
  else if k + 1 < 12 then some (k + 1, wp + 1)
  else none

/-- The colour phase at LED `j`: its color is read once, or the operation is over after LED `N-1`
(spec/41_frame_packer.md R49). -/
def startLed (j : Nat) (s : State) : State :=
  if j < s.cfg.N then
    { useDraws 1 s with seq := some (.packLed j (cmEntry s.cm j s.draws) 0 (s.cfg.ledBase j)) }
  else finishSequencer s

/-- One write of the operation in progress, and completion with its last write (spec/10_state.md R21,
spec/30_encoding.md R35, spec/20_memory.md R28). Nothing when the sequencer is idle. -/
def microStep (s : State) : State :=
  match s.seq with
  | none => s
  | some .finish => finishSequencer s
  | some (.latch sym) => finishSequencer (encodeSymbol sym s)
  | some (.map offset i thenPack) =>
    let s1 := writeCm i (colorAt s.cfg.N offset.toNat i) s
    if i + 1 < s.cfg.N then { s1 with seq := some (.map offset (i + 1) thenPack) }
    else if thenPack then { s1 with seq := some (.reset 0 true) }
    else finishSequencer s1
  | some (.reset wp thenColour) =>
    let s1 := writeFb wp 0x00#8 s
    if wp + 1 < s.cfg.resetBytes then { s1 with seq := some (.reset (wp + 1) thenColour) }
    else if thenColour then startLed 0 s1
    else finishSequencer s1
  | some (.packClr base color k wp) =>
    let s1 := writeFb wp (slotByte s.cfg base color k wp) s
    match nextPair s.cfg base k wp with
    | some (k', wp') => { s1 with seq := some (.packClr base color k' wp') }
    | none => finishSequencer s1
  | some (.packLed j color k wp) =>
    let s1 := writeFb wp (slotByte s.cfg (s.cfg.ledBase j) color k wp) s
    match nextPair s.cfg (s.cfg.ledBase j) k wp with
    | some (k', wp') => { s1 with seq := some (.packLed j color k' wp') }
    | none => startLed (j + 1) s1

/-- The counters at acceptance, and the error PACKCLR's bounds test or the reserved opcode takes before any write
(spec/10_state.md R21, spec/60_exceptions.md R65, R67). DESIGN CHOICE (log 18): the error's bit rises at the acceptance
edge, together with BUSY; the spec fixes only that it rises before the operation ends, and gives no edge (R67, R96). -/
def startOperation (i : Instr) (s : State) : State :=
  match i with
  | .nop => { accept s with seq := some .finish }
  | .enc sym => { accept s with seq := some (.latch sym) }
  | .packrst => { accept s with seq := some (.reset 0 false) }
  | .packclr off color =>
    if fitsBuffer s.cfg off.toNat then { accept s with seq := some (.packClr off.toNat color 0 off.toNat) }
    else { raiseError (.bounds off.toNat) (accept s) with seq := some .finish }
  | .updmap offset => { accept s with seq := some (.map offset 0 false) }
  | .packfrm => { accept s with seq := some (.reset 0 true) }
  | .build offset => { accept s with seq := some (.map offset 0 true) }
  | .reserved7 => { raiseError (.reservedOp 7#3) (accept s) with seq := some .finish }

/-- How many sequencer steps the operation takes: its writes, at least one (spec/43_composite_system.md R59,
spec/70_reset_and_hazards.md R96). -/
def writeCount (c : Config) : Instr → Nat
  | .nop => 1
  | .enc _ => 1
  | .packrst => c.resetBytes
  | .packclr off _ => if fitsBuffer c off.toNat then c.bytesPerLed else 1
  | .updmap _ => c.N
  | .packfrm => c.fbBytes
  | .build _ => c.N + c.fbBytes
  | .reserved7 => 1

/-- Core reset (spec/70_reset_and_hazards.md R83, R84, spec/10_state.md R23, R24, spec/60_exceptions.md R71): STATUS is
cleared, an operation in progress is abandoned without `cmd_done`, and nothing counts as written since reset any more,
so reads of `CM`, `FB` and `PAT` are free draws again. A transfer in flight goes on reading what stands in `FB`
(R84(b)): it keeps those contents. HOST's clock and the transport are not reached. -/
def resetCore (s : State) : State :=
  { s with
    status := 0b000#3
    seq := none
    cmdDone := false
    cm := []
    fb := []
    patWritten := false
    xfer := s.xfer.map fun x => { x with held := s.fb.foldl (fun m cell => memWrite m cell.1 cell.2) x.held } }

/-- One rising edge of `clk`: reset wins over acceptance and completion (spec/60_exceptions.md R69); a busy core goes on
and does not accept (spec/70_reset_and_hazards.md R90); an idle one accepts a valid command. DESIGN CHOICE (log 19): at
the acceptance edge itself no write is performed, whatever `work` says; the first can fall on the next edge. R35 says
only that the core samples, sets BUSY and starts there, and R96 fixes no cycle. -/
def clockEdge (rst valid : Bool) (i : Instr) (work : Nat) (s : State) : State :=
  if rst then resetCore s
  else if cmdReady s.status then (if valid then startOperation i s else s)
  else repeatOp microStep work s

/-- What is left on the command port after an edge: the command presented, if the core has not accepted it there, for
HOST to hold on (spec/70_reset_and_hazards.md R90, spec/60_exceptions.md R69). -/
def leftOnPort (rst valid : Bool) (cmd : CmdWord) (st : BitVec 3) : Option CmdWord :=
  if valid && (rst || !cmdReady st) then some cmd else none

end Sys2Proof.Machine
end

