-- ==== Sys2Proof/Machine/Transport.lean ====
section
/-! DEFINITION. TRANSPORT as spec/60_exceptions.md R73 gives it: a black box that is configured, accepts the frame buffer
and a length, and reads the bytes in order, each once. -/

namespace Sys2Proof.Machine

/-- The byte the transfer reads next: what `FB` holds, else what a reset in mid transfer left there
(spec/70_reset_and_hazards.md R84(b)), else a free draw (spec/10_state.md R24). -/
def xferByte (x : Transfer) (fb : FrameBuf) (draw : Nat) : Byte :=
  ((memRead fb x.next).or (memRead x.held x.next)).getD (Config.drawByte draw)

/-- One byte of the transfer in flight goes out; with the last one the transfer is over (spec/60_exceptions.md R73). -/
def xferRead (s : State) : State :=
  match s.xfer with
  | none => s
  | some x =>
    { useDraws 1 s with
      wire := s.wire ++ [xferByte x s.fb s.draws]
      xfer := if x.next + 1 < x.length then some { x with next := x.next + 1 } else none }

/-- The transport's `configure(F_SPI, MAX_XFER)`, called once (spec/60_exceptions.md R73). -/
def configureCall (s : State) : Host.Outcome State Fault Refusal :=
  if s.busConfig.isSome then .refused .transportAlreadySetUp
  else .next { s with busConfig := some { fSpi := s.cfg.fSpi, maxXfer := s.cfg.maxXfer } }

/-- The transport's `begin(PIN)`, called once (spec/60_exceptions.md R73). -/
def beginCall (s : State) : Host.Outcome State Fault Refusal :=
  if s.busPin.isSome then .refused .transportAlreadySetUp
  else .next { s with busPin := some s.cfg.pin }

/-- A submitted transfer is pending from its first byte on; one of no bytes is over at once
(spec/60_exceptions.md R73). -/
def beginTransfer (length : Nat) (s : State) : State :=
  if length = 0 then s else { s with xfer := some { next := 0, length := length, held := [] } }

/-- A transfer begins. A blocking transport returns only when the last byte has been read (spec/60_exceptions.md R73,
spec/93_implementation_defined.md U13): with the core idle nothing else can happen meanwhile and all bytes are read
here; with the core busy (spec/70_reset_and_hazards.md R86 broken) HOST is held in the call while the core's writes and
the transport's reads go on in an order that is not given (U4, log 8). -/
def startTransfer (length : Nat) (s : State) : State :=
  if s.cfg.blocking then
    if cmdReady s.status then repeatOp xferRead length (beginTransfer length s)
    else { beginTransfer length s with inputs := .awaitTransfer :: s.inputs }
  else beginTransfer length s

/-- `transfer(FB, null, length)` with the transport's answer `ok` (spec/60_exceptions.md R73, R78). DESIGN CHOICE
(log 11): a failed submission starts nothing and changes nothing, in any state of the transport. The stops are the cases the spec leaves to the black box. -/
def transferCall (length : Nat) (ok : Bool) (s : State) : Host.Outcome State Fault Refusal :=
  if !ok then .next s
  else
    match s.busConfig, s.busPin with
    | some bus, some _ =>
      if s.xfer.isSome then .refused .transferPending
      else if bus.maxXfer < length then .refused .overlongTransfer
      else if s.cfg.fbBytes < length then .fault .noSuchFbAddress
      else .next (startTransfer length s)
    | none, _ => .refused .transportNotReady
    | some _, none => .refused .transportNotReady

/-- What goes on by itself while HOST does nothing: the core's writes and the transport's reads. With both at work the
order is not given (spec/93_implementation_defined.md U4), so a free value decides. -/
def quiet (s : State) : State :=
  match s.seq.isSome, s.xfer.isSome with
  | true, true =>
    if Config.transportFirst s.draws then xferRead (useDraws 1 s)
    else microStep (useDraws 1 s)
  | true, false => microStep s
  | false, true => xferRead s
  | false, false => s

end Sys2Proof.Machine
end

