-- ==== Sys2Proof/Machine/Scheduler.lean ====
section
/-! DEFINITION. HOST: the Transfer Scheduler (spec/60_exceptions.md R74 to R78), the host actions of
spec/30_encoding.md R41, and the read ports (spec/10_state.md R14, R18, R19). -/

namespace Sys2Proof.Machine

/-- `elapsed(now, last_ts)`, the source's formula with its wraparound branch (spec/60_exceptions.md R75). -/
def elapsed (now last : BitVec 32) : Nat :=
  if last.toNat ≤ now.toNat then now.toNat - last.toNat else (tsMax - last.toNat) + now.toNat

/-- `fire` (spec/60_exceptions.md R75). -/
def fires (c : Config) (now last : BitVec 32) : Bool := decide (c.intervalMs ≤ elapsed now last)

/-- HOST's calls before the first transfer: `configure(F_SPI, MAX_XFER)` and `begin(PIN)`
(spec/70_reset_and_hazards.md R85(3)). -/
def setUpTransport : List Event := [.configure, .beginPins]

/-- `SUBMIT`: the transfer of exactly `FB_BYTES` bytes (spec/30_encoding.md R41, spec/70_reset_and_hazards.md R88). -/
def submit (c : Config) (ok : Bool) : Event := .transfer c.fbBytes ok

/-- `TICK offset`: BUILD, then SUBMIT (spec/30_encoding.md R41). -/
def tick (c : Config) (offset : Word) (ok : Bool) : List Event :=
  [.command (encode (.build offset)), submit c ok]

/-- One poll of the scheduler: from Idle, once the interval has elapsed, the tick of spec/60_exceptions.md R76 is put
before every other input; otherwise nothing (R77). DEDUCED (log 15): nothing comes between the tick's actions, the
transport's reads included. -/
def pollScheduler (now : BitVec 32) (ok : Bool) (s : State) : State :=
  if s.hostPhase = .idle ∧ fires s.cfg now s.lastTs = true then
    { s with
      hostPhase := .transmitting
      inputs := tick s.cfg s.frameCounter ok ++ .endTick now ok :: s.inputs }
  else s

/-- Steps 4 to 6 of the tick: counter, timestamp, Idle (spec/60_exceptions.md R76). After a failed submission the
reference design does the same; under the recommended policy the two updates are parameters (R78). -/
def endTick (now : BitVec 32) (ok : Bool) (s : State) : State :=
  match ok, s.cfg.errorPolicy with
  | false, .skipTick updateCounter updateTimestamp =>
    { s with
      frameCounter := if updateCounter then s.frameCounter + 1#32 else s.frameCounter
      lastTs := if updateTimestamp then now else s.lastTs
      hostPhase := .idle }
  | true, _ => { s with frameCounter := s.frameCounter + 1#32, lastTs := now, hostPhase := .idle }
  | false, .ignoreResult => { s with frameCounter := s.frameCounter + 1#32, lastTs := now, hostPhase := .idle }

/-- HOST's read of `FB[a]` (spec/10_state.md R19). -/
def hostReadFb (a : Nat) (s : State) : Host.Outcome State Fault Refusal :=
  if a < s.cfg.fbBytes then .next { useDraws 1 s with fbRdata := fbByte s.fb a s.draws }
  else .fault .noSuchFbAddress

/-- HOST's read of `CM[i]` (spec/10_state.md R18). -/
def hostReadCm (i : Nat) (s : State) : Host.Outcome State Fault Refusal :=
  if i < s.cfg.N then .next { useDraws 1 s with cmRdata := cmEntry s.cm i s.draws }
  else .fault .noSuchCmIndex

/-- HOST's read of `pat_out` (spec/10_state.md R14). -/
def hostReadPat (s : State) : State := { useDraws s.cfg.patBytes s with patOut := patBytesRead s s.draws }

end Sys2Proof.Machine
end

