-- ==== Sys2Proof/WellFormed.lean ====
section
/-! DEFINITION. The checks made once, before a machine or a command is used: `ConfigOK` (spec/00_scope.md R9) with the
ranges of the parameters (R7), a command that records no error (spec/60_exceptions.md R64), the addresses an operation
writes (spec/41_frame_packer.md R51), and the index of the pseudo-instruction PACKLED (spec/30_encoding.md R41). An
`Instr` itself needs no check: the types of its operands have exactly the encoding's widths. -/

namespace Sys2Proof

/-- The clauses of `ConfigOK` that a core rule reads (spec/00_scope.md R9, last paragraph: a model of the core alone may
drop the three timing and transport clauses; spec/90_conflicts.md C10). -/
abbrev Config.CoreOK (c : Config) : Prop :=
  (c.variant = .A → c.E = 12) ∧ (c.variant = .B → c.E = 4) ∧
  (c.E % 4 = 0 ∧ 4 ≤ c.E) ∧
  1 ≤ c.N ∧
  1 ≤ c.resetBytes ∧
  c.fbBytes < 2 ^ 32 ∧
  (c.table.p0.length = c.patBytes ∧ c.table.p1.length = c.patBytes ∧
    c.table.p2.length = c.patBytes ∧ c.table.p3.length = c.patBytes) ∧
  [c.table.p0, c.table.p1, c.table.p2, c.table.p3].Nodup

/-- The three timing and transport clauses of `ConfigOK` (spec/00_scope.md R9, spec/70_reset_and_hazards.md R91, R93). -/
abbrev Config.TimingOK (c : Config) : Prop :=
  0 < c.fSpi ∧
  80 * c.fSpi ≤ c.resetBytes * 8 * 1000000 ∧
  c.fbBytes ≤ c.maxXfer

/-- `ConfigOK` (spec/00_scope.md R9). -/
abbrev Config.OK (c : Config) : Prop := c.CoreOK ∧ c.TimingOK

/-- The ranges of the parameters (spec/00_scope.md R7, table). `H_0` and `H_1` enter through `TABLE` only
(`Machine.PulseShaped`). -/
abbrev Config.InRange (c : Config) : Prop :=
  (c.E % 4 = 0 ∧ 0 < c.E) ∧ (1 ≤ c.N ∧ c.N < 2 ^ 32) ∧ 1 ≤ c.resetBytes ∧
  0 < c.fSpi ∧ 0 < c.intervalMs ∧ 0 < c.maxXfer

/-- The configuration of a whole instance: `ConfigOK`, with every parameter in its range (spec/00_scope.md R7, R9). -/
abbrev Config.Buildable (c : Config) : Prop := c.OK ∧ c.InRange

/-- The command records no error in an instance with configuration `c`: its opcode is not reserved and, for PACKCLR,
its sub-range fits the frame buffer in exact arithmetic (spec/60_exceptions.md R64, R65). -/
def Instr.errorFree (c : Config) : Instr → Bool
  | .packclr off _ => decide (off.toNat + c.bytesPerLed ≤ c.fbBytes)
  | .reserved7 => false
  | .nop => true
  | .enc _ => true
  | .packrst => true
  | .updmap _ => true
  | .packfrm => true
  | .build _ => true

/-- The operation stores to the frame buffer (spec/41_frame_packer.md R51). -/
def Instr.writesFb : Instr → Bool
  | .packrst => true
  | .packclr _ _ => true
  | .packfrm => true
  | .build _ => true
  | .nop => false
  | .enc _ => false
  | .updmap _ => false
  | .reserved7 => false

/-- The operation writes the byte at address `a` of the frame buffer (spec/41_frame_packer.md R47 to R51). -/
def Instr.storesAt (c : Config) (a : Nat) : Instr → Bool
  | .packrst => decide (a < c.resetBytes)
  | .packclr off _ =>
    decide (off.toNat + c.bytesPerLed ≤ c.fbBytes ∧ off.toNat ≤ a ∧ a < off.toNat + c.bytesPerLed)
  | .packfrm => decide (a < c.fbBytes)
  | .build _ => decide (a < c.fbBytes)
  | .nop => false
  | .enc _ => false
  | .updmap _ => false
  | .reserved7 => false

/-- The operation stores to the color map (spec/41_frame_packer.md R51). -/
def Instr.writesCm : Instr → Bool
  | .updmap _ => true
  | .build _ => true
  | .nop => false
  | .enc _ => false
  | .packrst => false
  | .packclr _ _ => false
  | .packfrm => false
  | .reserved7 => false

/-- The pseudo-instruction `PACKLED j, color` as the one command it stands for, refused for a `j` that names no LED
(spec/30_encoding.md R41). -/
def packLedCommand (c : Config) (j : Nat) (color : Word) : Option Instr :=
  if j < c.N then some (.packclr (BitVec.ofNat 32 (c.ledBase j)) color) else none

end Sys2Proof
end

