-- ==== Sys2Proof/Machine/Events.lean ====
section
/-! DEFINITION. What each event does, and how a command is placed for the next step. -/

namespace Sys2Proof.Machine

/-- The operation is atomic at its boundary: the proviso of spec/00_scope.md R6 that the hazard rule
spec/70_reset_and_hazards.md R86 is kept (no store to `FB` while a transfer is pending). -/
def atomicHere (i : Instr) (s : State) : Bool := s.xfer.isNone || !i.writesFb

/-- HOST issues a command and waits for its completion (spec/30_encoding.md R35). A busy core does not accept: the
command waits on the port, and what is going on goes on (spec/70_reset_and_hazards.md R90). An idle one runs the
operation to its end, in one transition where spec/00_scope.md R6 says so, and write by write where the hazard rule is
broken. -/
def issueCommand (w : CmdWord) (s : State) : Host.Outcome State Fault Refusal :=
  if cmdReady s.status then
    if atomicHere (decodeWord w) s then exec (decodeWord w) (holdPort none s)
    else .next { startOperation (decodeWord w) (holdPort none s) with inputs := .await :: s.inputs }
  else .next (quiet { holdPort (some w) s with inputs := .command w :: s.inputs })

/-- HOST waits while the core is busy (spec/60_exceptions.md R76). -/
def awaitReady (s : State) : State :=
  if cmdReady s.status then s else quiet { s with inputs := .await :: s.inputs }

/-- HOST waits while a transfer is in flight: held in a blocking call (spec/60_exceptions.md R73), or, for a background
transfer, of its own accord. DESIGN CHOICE (log 21): the wait is over with the transport's last read, whatever
`Config.blocking` says. spec/20_memory.md R31(b) makes the transport's completion a synchronisation point, and says
that the source gives HOST no primitive for waiting on it. -/
def awaitTransferEnd (s : State) : State :=
  if s.xfer.isNone then s else quiet { s with inputs := .awaitTransfer :: s.inputs }

/-- One event, already taken off `inputs`. -/
def handleEvent (e : Event) (s : State) : Host.Outcome State Fault Refusal :=
  match e with
  | .command w => issueCommand w s
  | .edge rst valid cmd work =>
    .next (clockEdge rst valid (decodeWord cmd) work (holdPort (leftOnPort rst valid cmd s.status) s))
  | .reset => .next (resetCore s)
  | .await => .next (awaitReady s)
  | .readFb a => hostReadFb a s
  | .readCm i => hostReadCm i s
  | .readPat => .next (hostReadPat s)
  | .configure => configureCall s
  | .beginPins => beginCall s
  | .transfer length ok => transferCall length ok s
  | .awaitTransfer => .next (awaitTransferEnd s)
  | .xferRead => .next (xferRead s)
  | .poll now ok => .next (pollScheduler now ok s)
  | .endTick now ok => .next (endTick now ok s)

/-- The state in which an event taken off `inputs` is handled: `rest` is still to come, and the one-cycle pulse
`cmd_done` is over (spec/30_encoding.md R35). -/
def takeEvent (rest : List Event) (s : State) : State := { s with inputs := rest, cmdDone := false }

/-- One step: the next event, or, with none, what goes on by itself. An instance whose configuration is not well formed
does not exist (spec/00_scope.md R9): its state has no step. The core clauses are what is asked here, as R9 and
spec/90_conflicts.md C10 admit core-only configurations. -/
def stepEvent (s : State) : Host.Outcome State Fault Refusal :=
  if s.cfg.CoreOK then
    match s.inputs with
    | [] => .next (quiet (takeEvent [] s))
    | e :: rest => handleEvent e (takeEvent rest s)
  else .refused .configurationError

/-- The command placed so that the next step runs exactly it: first in `inputs`, the core ready, and no transfer in
flight where the operation stores to `FB` (spec/00_scope.md R6, spec/70_reset_and_hazards.md R86). -/
def placeCommand (w : CmdWord) (s : State) : State :=
  { s with
    inputs := .command w :: s.inputs
    seq := none
    status := clearBusy s.status
    xfer := if (decodeWord w).writesFb then none else s.xfer }

end Sys2Proof.Machine
end

