-- ==== Sys2Proof/Machine/Step.lean ====
section
/-! DEFINITION. The step of the machine. There is no program counter and no fetch (spec/10_state.md R15): the next event
of `inputs` is the next thing that happens. -/

namespace Sys2Proof.Machine

/-- One step. -/
def step (s : State) : Host.Outcome State Fault Refusal := stepEvent s

/-- The state with the command word of a table row where the next step takes its command from. -/
def State.withFetchWord (s : State) (nbits w : Nat) : State :=
  placeCommand (BitVec.ofNat 67 (tableWord nbits w)) s

end Sys2Proof.Machine
end

