-- ==== Sys2Proof/Machine/Build.lean ====
section
/-! DEFINITION. Building an instance: a configuration that is not well formed "is refused at elaboration and never
becomes hardware" (spec/60_exceptions.md R63, spec/00_scope.md R9, D14). -/

namespace Sys2Proof.Machine

/-- A whole instance, right after reset (spec/00_scope.md R7, R9). -/
def buildInstance (c : Config) : Host.Outcome State Fault Refusal :=
  if c.Buildable then .next (State.resetOf c) else .refused .configurationError

/-- A core alone, which may drop the timing and transport clauses (spec/00_scope.md R9, last paragraph,
spec/90_conflicts.md C10). -/
def buildCore (c : Config) : Host.Outcome State Fault Refusal :=
  if c.CoreOK then .next (State.resetOf c) else .refused .configurationError

end Sys2Proof.Machine
end

