-- ==== Sys2Proof/Machine/Waveform.lean ====
section
/-! DEFINITION. The bytes of the frame buffer as the serial bit stream (spec/00_scope.md R12), the pulse shape of the
pattern table (spec/40_symbol_encoder.md R43(d)) and its decoding by run lengths (R46(b)). Time is counted in output
bits of `1 / F_SPI` (spec/70_reset_and_hazards.md R94); absolute times are ratios of these. -/

namespace Sys2Proof.Machine

/-- The bits of a byte in the order they are emitted: bit 7 first (spec/00_scope.md R12). -/
def byteBits (b : Byte) : List Bool := (List.range 8).map fun i => b.getMsbD i

/-- The serial bit stream of a byte sequence: lower address first (spec/00_scope.md R12). -/
def wireBits (bs : List Byte) : List Bool := bs.flatMap byteBits

/-- `pulse(b) = 1 repeated H_b times ++ 0 repeated (E - H_b) times` for `h = H_b`
(spec/40_symbol_encoder.md R43(d)). -/
def pulse (E h : Nat) : List Bool := List.replicate h true ++ List.replicate (E - h) false

/-- `H_b` for the logical bit `b` (spec/40_symbol_encoder.md R43(d)). -/
def highRun (h0 h1 : Nat) (b : Bool) : Nat := if b then h1 else h0

/-- The table has the form of spec/40_symbol_encoder.md R43(d) with high runs `h0 < h1`. -/
abbrev PulseShaped (c : Config) (h0 h1 : Nat) : Prop :=
  1 ≤ h0 ∧ h0 < h1 ∧ h1 ≤ c.E - 1 ∧
  ∀ s : BitVec 2, wireBits (symbolEncoder c s) =
    pulse c.E (highRun h0 h1 (s.getLsbD 1)) ++ pulse c.E (highRun h0 h1 (s.getLsbD 0))

/-- The runs of equal levels of a bit stream with their lengths, first run first (spec/40_symbol_encoder.md R46(b),
"measuring high/low run lengths"). -/
def runLengths : List Bool → List (Bool × Nat)
  | [] => []
  | b :: bs =>
    match runLengths bs with
    | [] => [(b, 1)]
    | (b', n) :: rs => if b = b' then (b', n + 1) :: rs else (b, 1) :: (b', n) :: rs

/-- One logical bit for each high run and the low run after it: a 1 where the high run is the long one. -/
def logicalBits (h1 : Nat) : List (Bool × Nat) → List Bool
  | (true, n) :: (false, _) :: rs => decide (n = h1) :: logicalBits h1 rs
  | _ => []

/-- The 24 bits of a color, bit 23 first: G, R, B, each most significant bit first (spec/20_memory.md R25). -/
def colorBits (color : Word) : List Bool := (List.range 24).map fun i => color.getLsbD (23 - i)

/-- The length in output bits of the reset region (spec/70_reset_and_hazards.md R93) and of the frame (R94). -/
def resetRegionBits (c : Config) : Nat := 8 * c.resetBytes
def frameBits (c : Config) : Nat := 8 * c.fbBytes

/-- The level of the data line while no transfer is in flight: the open parameter `IDLE_LEVEL`
(spec/70_reset_and_hazards.md R97). -/
def idleLine (c : Config) : Bool := c.idleLevel

end Sys2Proof.Machine
end

