-- ==== Sys2Proof/Safety.lean ====
section
/-! DEFINITION. What the claims speak of: the machine invariant, HOST's duties (spec/60_exceptions.md R79,
spec/70_reset_and_hazards.md R85 to R90), a complete frame (spec/41_frame_packer.md R50), and sequences of
operations. -/

namespace Sys2Proof.Machine

/-- The private counters are in range (spec/10_state.md R21; the write pointer never passes the end of the buffer,
R15). -/
def SlotOK (c : Config) (base k wp : Nat) : Prop :=
  base + c.bytesPerLed ≤ c.fbBytes ∧ k < 12 ∧ base + c.patBytes * k ≤ wp ∧ wp < base + c.patBytes * (k + 1)

/-- The private counters of each phase are in range (spec/10_state.md R21). -/
def SequencerOK (c : Config) : Sequencer → Prop
  | .finish => True
  | .latch _ => True
  | .map _ i _ => i < c.N
  | .reset wp _ => wp < c.resetBytes
  | .packClr base _ k wp => SlotOK c base k wp
  | .packLed j _ k wp => j < c.N ∧ SlotOK c (c.ledBase j) k wp

/-- A transfer in flight lies inside the buffer (spec/60_exceptions.md R73). -/
def TransferOK (c : Config) (x : Transfer) : Prop :=
  x.next < x.length ∧ x.length ≤ c.fbBytes ∧ Memory.wf x.held ∧ Memory.below x.held c.fbBytes

/-- The machine invariant: the configuration is well formed in its core clauses, both memories are in canonical form
and hold only addresses that exist, no color-map word has a bit above 23 (spec/42_color_map.md R54(c)), `PAT` has
`PAT_BYTES` bytes, BUSY says whether the sequencer is at work, counters and transfer are in range, and the transport is
set up with the instance's own constants or not at all (spec/60_exceptions.md R73). -/
structure Inv (s : State) : Prop where
  config : s.cfg.CoreOK
  fbWf : Memory.wf s.fb
  fbBelow : Memory.below s.fb s.cfg.fbBytes
  cmWf : Memory.wf s.cm
  cmBelow : Memory.below s.cm s.cfg.N
  cmLow : ∀ x ∈ s.cm, x.2.toNat < 2 ^ 24
  patLength : s.pat.length = s.cfg.patBytes
  patOutLength : s.patOut.length = s.cfg.patBytes
  busySeq : busyBit s.status = s.seq.isSome
  seqOk : ∀ q, s.seq = some q → SequencerOK s.cfg q
  xferOk : ∀ x, s.xfer = some x → TransferOK s.cfg x
  busOk : ∀ bus, s.busConfig = some bus → bus = { fSpi := s.cfg.fSpi, maxXfer := s.cfg.maxXfer }
  pinOk : ∀ pin, s.busPin = some pin → pin = s.cfg.pin

/-- Every byte of the buffer has been written since reset (spec/70_reset_and_hazards.md R85(5)). -/
def FrameWritten (s : State) : Prop := ∀ a < s.cfg.fbBytes, (memRead s.fb a).isSome

/-- Every entry of the color map has been written since reset (spec/70_reset_and_hazards.md R85). -/
def MapWritten (s : State) : Prop := ∀ j < s.cfg.N, (memRead s.cm j).isSome

/-- The frame of the colors `col` stands in the buffer (spec/41_frame_packer.md R50(a), (b)). -/
def FrameHolds (s : State) (col : Nat → Word) : Prop :=
  (∀ a < s.cfg.resetBytes, memRead s.fb a = some 0x00#8) ∧
  ∀ j < s.cfg.N, ∀ k < 12, ∀ t < s.cfg.patBytes,
    memRead s.fb (s.cfg.ledBase j + s.cfg.patBytes * k + t) = (symbolEncoder s.cfg (pairIndex (col j) k))[t]?

/-- A complete frame stands in the buffer: the reset region zero, all `N` LED slots encoded
(spec/70_reset_and_hazards.md R87, spec/41_frame_packer.md R50). -/
def FrameComplete (s : State) : Prop := ∃ col, FrameHolds s col

/-- The operations of `ops` rewrite every byte of the buffer (spec/60_exceptions.md R79). -/
def RewritesFrame (c : Config) (ops : List Instr) : Prop := ∀ a < c.fbBytes, ∃ i ∈ ops, i.storesAt c a = true

/-- A command HOST may issue now: no store to `FB` while a transfer is pending (spec/70_reset_and_hazards.md R86), no
PACKFRM before the map is written (R85). -/
def CommandDuty (i : Instr) (s : State) : Prop :=
  (i.writesFb = true → s.xfer = none) ∧ (i = .packfrm → MapWritten s)

/-- A command HOST presents now is the one it holds on the port, if it holds one: its signals stay stable until the edge
at which it is accepted (spec/70_reset_and_hazards.md R90). -/
def HoldsCommand (w : CmdWord) (s : State) : Prop := ∀ held, s.offered = some held → w = held

/-- HOST's duties when it takes this action (spec/70_reset_and_hazards.md R85 to R90). DESIGN CHOICE (log 22): when a
command counts as issued for R85 and R86. At a clock edge it is when the core accepts it; a `command` event issues it
when HOST takes the action, so also in every step in which it waits at a busy core. `configure` and `begin` are
called once; a command on the port is held, unchanged, until it is accepted (R90); a submission is of the whole buffer,
in which a complete frame stands (R87), with the core idle, the transport set up with `(F_SPI, MAX_XFER)` and `PIN` and
no transfer pending; a read port is used at an address that exists and with the core idle. -/
def EventDuty (e : Event) (s : State) : Prop :=
  match e with
  | .command w => HoldsCommand w s ∧ CommandDuty (decodeWord w) s
  | .edge rst valid cmd _ =>
    HoldsCommand cmd s ∧ (s.offered.isSome = true → valid = true) ∧
    (rst = false → valid = true → cmdReady s.status = true → CommandDuty (decodeWord cmd) s)
  | .transfer length _ =>
    length = s.cfg.fbBytes ∧ cmdReady s.status = true ∧ FrameComplete s ∧ s.xfer = none ∧
    s.busConfig = some { fSpi := s.cfg.fSpi, maxXfer := s.cfg.maxXfer } ∧ s.busPin = some s.cfg.pin
  | .readFb a => a < s.cfg.fbBytes ∧ cmdReady s.status = true
  | .readCm i => i < s.cfg.N ∧ cmdReady s.status = true
  | .readPat => cmdReady s.status = true
  | .reset => True
  | .await => True
  | .configure => s.busConfig = none
  | .beginPins => s.busPin = none
  | .awaitTransfer => True
  | .xferRead => True
  | .poll _ _ => True
  | .endTick _ _ => True

/-- The source's stricter discipline for a submission (spec/60_exceptions.md R79, spec/70_reset_and_hazards.md R87,
first half): besides the duties above, the operations `past` that HOST has issued since its last submission have
rewritten every byte. R87's second half puts a HOST that changes one LED of a complete frame outside this discipline
but inside the rules, that is inside `EventDuty`. -/
def SchedulerDuty (past : List Instr) (e : Event) (s : State) : Prop :=
  EventDuty e s ∧ ∀ length ok, e = .transfer length ok → RewritesFrame s.cfg past

/-- The operations of a list one after another, each to its completion (spec/43_composite_system.md R62). -/
def execAll : List Instr → State → Host.Outcome State Fault Refusal
  | [], s => .next s
  | i :: is, s =>
    match exec i s with
    | .next t => execAll is t
    | .fault r => .fault r
    | .refused r => .refused r

/-- The state an operation leaves when only STATUS and `cmd_done` have changed, with no error recorded
(spec/30_encoding.md R35: BUSY falls, the pulse is raised). -/
def completed (s : State) : State := { s with status := s.status &&& 0b110#3, cmdDone := true }

end Sys2Proof.Machine
end

