-- ==== Sys2Proof/Certificates/Slice0/Obligations.lean ====
section
/-! DEFINITION. The statements about the model, in the order of OBLIGATIONS.json. Every statement is for every
configuration, and none rests on a free value, on the configuration of `State.reset`, or on a value the model chose for
reset, unless its docstring says so. A state whose configuration breaks the core clauses of `ConfigOK` has no step
(`Obligations.OnlyWellFormedInstancesRun`); statements about the step have those clauses as a premise. `draws` is the
model's own counter of free values (log 2). That the pulse of `cmd_done` is over with the next step is the model's
inference (log 16). -/

open Sys2Proof Sys2Proof.Machine

/-! ## Encoding (spec/30_encoding.md) -/

/-- Decoding an encoded operation gives it back, with every operand at every value the encoding admits, through the
number of the command word and through the table's numbering. -/
def Obligations.DecodeEncodeRoundTrip : Prop :=
  ∀ i : Instr, decode (encode i).toNat = .ok i ∧ decodeTableWord 72 (encode i).toNat = some i

/-- The operation and operands of every number below `2^67`, computed as spec/95_test_vectors.md section 2.7 says
("op = word >> 64, arg1 = (word >> 32) & 0xFFFFFFFF, arg0 = word & 0xFFFFFFFF") with the operand fields of R36; a larger
number is refused by name. -/
def Obligations.OperandFieldsOfEachOpcode : Prop :=
  ∀ n : Nat,
    (n < 2 ^ 67 → decode n = .ok (
      if n / 2 ^ 64 = 0 then .nop
      else if n / 2 ^ 64 = 1 then .enc (BitVec.ofNat 2 (n % 4))
      else if n / 2 ^ 64 = 2 then .packrst
      else if n / 2 ^ 64 = 3 then .packclr (BitVec.ofNat 32 (n % 2 ^ 32)) (BitVec.ofNat 32 (n / 2 ^ 32 % 2 ^ 32))
      else if n / 2 ^ 64 = 4 then .updmap (BitVec.ofNat 32 (n % 2 ^ 32))
      else if n / 2 ^ 64 = 5 then .packfrm
      else if n / 2 ^ 64 = 6 then .build (BitVec.ofNat 32 (n % 2 ^ 32))
      else .reserved7)) ∧
    (2 ^ 67 ≤ n → decode n = .error .tooWide)

/-- R39: operand bits an operation does not use change neither what it does nor which errors it records. -/
def Obligations.UnusedOperandBitsIgnored : Prop :=
  ∀ (a1 a0 b1 b0 : Word) (s : State),
    (∀ op ∈ [0#3, 2#3, 5#3, 7#3], exec (decodeWord (assemble op a1 a0)) s = exec (decodeWord (assemble op b1 b0)) s) ∧
    (a0.toNat % 4 = b0.toNat % 4 →
      exec (decodeWord (assemble 1#3 a1 a0)) s = exec (decodeWord (assemble 1#3 b1 b0)) s) ∧
    (a1.toNat % 2 ^ 24 = b1.toNat % 2 ^ 24 →
      exec (decodeWord (assemble 3#3 a1 a0)) s = exec (decodeWord (assemble 3#3 b1 a0)) s) ∧
    (∀ op ∈ [4#3, 6#3], exec (decodeWord (assemble op a1 a0)) s = exec (decodeWord (assemble op b1 a0)) s)

/-- The command words of spec/95_test_vectors.md V22, written out there, decode to their operations. -/
def Obligations.SampleCommandWords : Prop :=
  decodeTableWord 72 0x00000000000000000 = some .nop ∧
  decodeTableWord 72 0x10000000000000002 = some (.enc 2#2) ∧
  decodeTableWord 72 0x20000000000000000 = some .packrst ∧
  decodeTableWord 72 0x300FF800000000020 = some (.packclr 32#32 0x00FF8000#32) ∧
  decodeTableWord 72 0x40000000000000005 = some (.updmap 5#32) ∧
  decodeTableWord 72 0x50000000000000000 = some .packfrm ∧
  decodeTableWord 72 0x600000000FFFFFFFF = some (.build 0xFFFFFFFF#32) ∧
  decodeTableWord 72 0x70000000000000000 = some .reserved7

/-! ## The step and the invariant -/

/-- A command at the head of `inputs`, the core ready: where the hazard rule R86 is kept, the step is `exec` of the
decoded operation on the state with the event taken off and nothing held on the command port; where it is broken, the
operation is accepted and HOST waits (the model's form of the race, log 8). -/
def Obligations.StepRunsDecodedCommand : Prop :=
  ∀ (s : State) (w : CmdWord) (rest : List Event), s.cfg.CoreOK → s.inputs = .command w :: rest →
    busyBit s.status = false →
    (s.xfer = none ∨ (decodeWord w).writesFb = false →
      step s = exec (decodeWord w) { s with inputs := rest, cmdDone := false, offered := none }) ∧
    (s.xfer ≠ none → (decodeWord w).writesFb = true →
      step s = .next { startOperation (decodeWord w) { s with cmdDone := false, offered := none } with
        inputs := .await :: rest })

/-- The very next step runs the table word that was placed (how a command is placed is the model's choice, log 6). -/
def Obligations.PlacedWordRunsNext : Prop :=
  ∀ (s : State) (nbits w : Nat) (i : Instr), s.cfg.CoreOK → decodeTableWord nbits w = some i →
    step (s.withFetchWord nbits w) =
      exec i { s with
        seq := none, status := s.status &&& 0b110#3, cmdDone := false, offered := none
        xfer := if i.writesFb then none else s.xfer }

/-- Every step keeps the machine invariant of Safety.lean. -/
def Obligations.StepKeepsInvariant : Prop :=
  ∀ s t : State, Inv s → step s = .next t → Inv t

/-- The invariant holds right after reset, for every configuration that meets the core clauses of `ConfigOK`. -/
def Obligations.InvariantAtReset : Prop :=
  (∀ c : Config, c.CoreOK → Inv (State.resetOf c)) ∧ Inv State.reset

/-- R17: no step changes a parameter. -/
def Obligations.ConfigurationConstant : Prop :=
  ∀ s t : State, step s = .next t → t.cfg = s.cfg

/-- With nothing to do the core keeps all its state (spec/60_exceptions.md R82); only the one-cycle pulse ends. That this
is so also where HOST holds a command on the port, because only an edge or a command event offers it to the core, is the
model's choice (log 20). -/
def Obligations.IdleCoreKeepsState : Prop :=
  ∀ s : State, s.cfg.CoreOK → s.inputs = [] → s.seq = none → s.xfer = none →
    step s = .next { s with cmdDone := false }

/-! ## Symbol Encoder (spec/40_symbol_encoder.md) -/

/-- R45: ENC completes from every state with every operand, `PAT = TABLE[sym]`, and changes nothing else; `sym` is the
two low bits of `arg0`. -/
def Obligations.EncLatchesPattern : Prop :=
  (∀ (sym : BitVec 2) (s : State),
    exec (.enc sym) s = .next { completed s with
      pat := if sym = 0#2 then s.cfg.table.p0 else if sym = 1#2 then s.cfg.table.p1
        else if sym = 2#2 then s.cfg.table.p2 else s.cfg.table.p3
      patWritten := true }) ∧
  ∀ arg1 arg0 : Word, decodeWord (assemble 1#3 arg1 arg0) = .enc (BitVec.ofNat 2 (arg0.toNat % 4))

/-- The encoder is total on its four inputs, gives patterns of `PAT_BYTES` bytes, and its outputs are four different
ones (R46(a)). -/
def Obligations.EncoderTotalAndDistinct : Prop :=
  ∀ c : Config, c.CoreOK → ∀ s s' : BitVec 2,
    (symbolEncoder c s).length = c.E / 4 ∧ (symbolEncoder c s = symbolEncoder c s' → s = s')

/-- For a table of the form of R43(d), measuring the run lengths of a pattern gives the high and low lengths of its two
logical bits, the more significant index bit first (R46(b)). -/
def Obligations.PatternRunLengths : Prop :=
  ∀ (c : Config) (h0 h1 : Nat), PulseShaped c h0 h1 → ∀ s : BitVec 2,
    runLengths (wireBits (symbolEncoder c s)) =
      [(true, highRun h0 h1 (s.getLsbD 1)), (false, c.E - highRun h0 h1 (s.getLsbD 1)),
       (true, highRun h0 h1 (s.getLsbD 0)), (false, c.E - highRun h0 h1 (s.getLsbD 0))]

/-- The default tables have the form of R43(d) with the high runs R44 gives (the spec's own defaults, D5). -/
def Obligations.DefaultTablesPulseShaped : Prop :=
  ∀ c : Config, (c.E = 12 → c.table = Config.tableA → PulseShaped c 4 8) ∧
    (c.E = 4 → c.table = Config.tableB → PulseShaped c 1 3)

/-- The bit stream of one LED's bytes, decoded by run lengths, is the 24 bits of its color, bit 23 first, and ends low:
R12, R37, R43(d), R46(b), R97 together. -/
def Obligations.WaveformCarriesColor : Prop :=
  ∀ (c : Config) (h0 h1 : Nat), PulseShaped c h0 h1 → ∀ color : Word,
    logicalBits h1 (runLengths (wireBits (ledBytes c color))) = colorBits color ∧
    (wireBits (ledBytes c color)).getLast? = some false

/-! ## Frame Packer (spec/41_frame_packer.md) -/

/-- R37: the twelve table indices of a color, most significant pair first, the more significant bit of the pair the
more significant index bit; bits 31-24 play no part; and the equivalent form by channel byte, `k = 0..3` of G, `4..7`
of R, `8..11` of B. -/
def Obligations.PairIndexExtraction : Prop :=
  ∀ (color : Word) (k : Nat), k < 12 →
    (pairIndex color k).toNat = color.toNat % 2 ^ 24 / 2 ^ (22 - 2 * k) % 4 ∧
    (pairIndex color k).toNat = color.toNat / 2 ^ (16 - 8 * (k / 4)) % 256 / 2 ^ (6 - 2 * (k % 4)) % 4 ∧
    (pairIndex color k).getLsbD 1 = color.getLsbD (23 - 2 * k) ∧
    (pairIndex color k).getLsbD 0 = color.getLsbD (22 - 2 * k)

/-- R29: every address of the buffer is in the reset region or is byte `t` of pattern `k` of LED `j` for exactly one
`(j, k, t)`, and these are below `FB_BYTES`. -/
def Obligations.LayoutCoversBuffer : Prop :=
  ∀ c : Config, c.CoreOK →
    (∀ a, c.resetBytes ≤ a → a < c.fbBytes →
      ∃ j k t, j < c.N ∧ k < 12 ∧ t < c.patBytes ∧ a = c.ledBase j + c.patBytes * k + t) ∧
    (∀ j k t, j < c.N → k < 12 → t < c.patBytes →
      c.resetBytes ≤ c.ledBase j + c.patBytes * k + t ∧ c.ledBase j + c.patBytes * k + t < c.fbBytes ∧
      ∀ j' k' t', k' < 12 → t' < c.patBytes →
        c.ledBase j + c.patBytes * k + t = c.ledBase j' + c.patBytes * k' + t' → j = j' ∧ k = k' ∧ t = t')

/-- R47: PACKRST completes from every state, zeroes exactly the reset region, and changes nothing else. -/
def Obligations.PackrstZeroesResetRegion : Prop :=
  ∀ s : State, ∃ m, exec .packrst s = .next { completed s with fb := m } ∧
    ∀ a, memRead m a = if a < s.cfg.resetBytes then some 0x00#8 else memRead s.fb a

/-- R48: where the sub-range fits, PACKCLR completes, pattern `k` stands at `off + PAT_BYTES*k`, every other byte and
all other state is unchanged; where it does not, in exact arithmetic, PACKCLR completes with ERR_BOUNDS set and nothing
else changed. -/
def Obligations.PackclrWritesPatterns : Prop :=
  ∀ (off color : Word) (s : State), s.cfg.CoreOK →
    (off.toNat + s.cfg.bytesPerLed ≤ s.cfg.fbBytes →
      ∃ m, exec (.packclr off color) s = .next { completed s with fb := m } ∧
        (∀ k < 12, ∀ t < s.cfg.patBytes,
          memRead m (off.toNat + s.cfg.patBytes * k + t) =
            (symbolEncoder s.cfg (BitVec.ofNat 2 (color.toNat % 2 ^ 24 / 2 ^ (22 - 2 * k))))[t]?) ∧
        ∀ a, a < off.toNat ∨ off.toNat + s.cfg.bytesPerLed ≤ a → memRead m a = memRead s.fb a) ∧
    (s.cfg.fbBytes < off.toNat + s.cfg.bytesPerLed →
      exec (.packclr off color) s = .next { completed s with status := (s.status &&& 0b110#3) ||| 0b010#3 })

/-- R48 corner case 4: at the largest offset accepted, `LED_BASE(N-1)`, the patterns are written there and no other byte
changes; one more is refused, and so is `0xFFFFFFFF`. -/
def Obligations.PackclrLargestOffset : Prop :=
  ∀ (off color : Word) (s : State), s.cfg.CoreOK →
    (off = BitVec.ofNat 32 (s.cfg.ledBase (s.cfg.N - 1)) →
      ∃ m, exec (.packclr off color) s = .next { completed s with fb := m } ∧
        (∀ k < 12, ∀ t < s.cfg.patBytes,
          memRead m (s.cfg.ledBase (s.cfg.N - 1) + s.cfg.patBytes * k + t) =
            (symbolEncoder s.cfg (BitVec.ofNat 2 (color.toNat % 2 ^ 24 / 2 ^ (22 - 2 * k))))[t]?) ∧
        ∀ a, a < s.cfg.ledBase (s.cfg.N - 1) ∨ s.cfg.fbBytes ≤ a → memRead m a = memRead s.fb a) ∧
    (off = BitVec.ofNat 32 (s.cfg.ledBase (s.cfg.N - 1) + 1) ∨ off = 0xFFFFFFFF#32 →
      exec (.packclr off color) s = .next { completed s with status := (s.status &&& 0b110#3) ||| 0b010#3 })

/-- R48 corner case 5: after `n` of its writes PACKCLR has the new bytes below `off + n` and the old ones from there. -/
def Obligations.PackclrWritesAscending : Prop :=
  ∀ (off color : Word) (s : State) (n : Nat), s.cfg.CoreOK →
    off.toNat + s.cfg.bytesPerLed ≤ s.cfg.fbBytes → n ≤ s.cfg.bytesPerLed →
    ∀ a, memRead (repeatOp microStep n (startOperation (.packclr off color) s)).fb a =
      if off.toNat ≤ a ∧ a < off.toNat + n then (ledBytes s.cfg color)[a - off.toNat]? else memRead s.fb a

/-- R49: PACKFRM completes from every state, the reset region is zero, LED `j` holds the color of `CM[j]`, for every
entry that has been written that very word, and for the others one color each (R24); addresses beyond the buffer and all
other state are unchanged. The draw counter is the model's own (log 2). -/
def Obligations.PackfrmWritesFrame : Prop :=
  ∀ s : State, s.cfg.CoreOK → ∃ (m : FrameBuf) (col : Nat → Word),
    exec .packfrm s = .next { completed s with fb := m, draws := s.draws + s.cfg.N } ∧
    (∀ j < s.cfg.N, ∀ w, memRead s.cm j = some w → col j = w) ∧
    FrameHolds { s with fb := m } col ∧
    ∀ a, s.cfg.fbBytes ≤ a → memRead m a = memRead s.fb a

/-- With the map written, PACKFRM leaves the state that PACKRST and then `PACKLED j, CM[j]` for `j = 0 .. N-1` leave
(spec/95_test_vectors.md V12), up to the model's draw counter. -/
def Obligations.PackfrmIsPackrstThenPackclrs : Prop :=
  ∀ (s : State) (col : Nat → Word), s.cfg.CoreOK → (∀ j < s.cfg.N, memRead s.cm j = some (col j)) →
    ∃ t, execAll (.packrst :: (List.range s.cfg.N).map fun j =>
        .packclr (BitVec.ofNat 32 (s.cfg.ledBase j)) (col j)) s = .next t ∧
      exec .packfrm s = .next { t with draws := s.draws + s.cfg.N }

/-- The colors of a frame can be read back from the buffer (R50, last sentence): two color maps whose frames stand in
one buffer agree in bits 23-0. -/
def Obligations.FrameDeterminesColors : Prop :=
  ∀ (s : State) (col col' : Nat → Word), s.cfg.CoreOK → FrameHolds s col → FrameHolds s col' →
    ∀ j < s.cfg.N, (col j).toNat % 2 ^ 24 = (col' j).toNat % 2 ^ 24

/-! ## Color Map Generator (spec/42_color_map.md) -/

/-- R52: UPDMAP completes from every state, entry `i` is `Color(N, offset, i)` with the exact sum (R55) and the
intensity masked before the shift (R56), and nothing else changes. -/
def Obligations.UpdmapComputesColors : Prop :=
  ∀ (offset : Word) (s : State), ∃ m, exec (.updmap offset) s = .next { completed s with cm := m } ∧
    ∀ i, memRead m i =
      if i < s.cfg.N then
        some (BitVec.ofNat 32
          ((((i + offset.toNat) % s.cfg.N / 2) &&& 0xFF) <<< (8 * ((i + offset.toNat) % s.cfg.N % 3))))
      else memRead s.cm i

/-- R54(b), as the spec weakens it, and R54(c): after UPDMAP an entry has no bit above 23, at most one of its three
channel bytes is non-zero, and one is exactly where `((i + offset) mod N) div 2 mod 256` is. -/
def Obligations.MapEntriesSingleChannel : Prop :=
  ∀ (offset : Word) (s t : State), exec (.updmap offset) s = .next t → ∀ i < s.cfg.N, ∃ w : Word,
    memRead t.cm i = some w ∧ w.toNat < 2 ^ 24 ∧
    (w.toNat = w.toNat % 256 ∨ w.toNat = w.toNat / 256 % 256 * 256 ∨ w.toNat = w.toNat / 65536 * 65536) ∧
    (w ≠ 0#32 ↔ (i + offset.toNat) % s.cfg.N / 2 % 256 ≠ 0)

/-- R54(a): a full strip rotation gives the same map, as whole states, for UPDMAP and for BUILD. -/
def Obligations.FullRotationRestoresMap : Prop :=
  ∀ (offset offset' : Word) (s : State), offset'.toNat = offset.toNat + s.cfg.N →
    exec (.updmap offset') s = exec (.updmap offset) s ∧ exec (.build offset') s = exec (.build offset) s

/-- R52 corner case 7: one more offset moves every color one index down, the color of index 0 to `N-1`. -/
def Obligations.OffsetMovesColorsDown : Prop :=
  ∀ (offset offset' : Word) (s t t' : State), s.cfg.CoreOK → offset'.toNat = offset.toNat + 1 →
    exec (.updmap offset) s = .next t → exec (.updmap offset') s = .next t' →
    (∀ i, i + 1 < s.cfg.N → memRead t'.cm i = memRead t.cm (i + 1)) ∧
    memRead t'.cm (s.cfg.N - 1) = memRead t.cm 0

/-! ## Composite and system operations (spec/43_composite_system.md) -/

/-- R57's closed form: BUILD completes from every state, `CM[i] = Color(N, offset, i)`, the frame of these colors
stands in the buffer, and nothing else changes. The draw counter is the model's own (log 2). -/
def Obligations.BuildClosedForm : Prop :=
  ∀ (offset : Word) (s : State), s.cfg.CoreOK → ∃ (m : ColorMap) (f : FrameBuf),
    exec (.build offset) s = .next { completed s with cm := m, fb := f, draws := s.draws + s.cfg.N } ∧
    (∀ i, memRead m i =
      if i < s.cfg.N then
        some (BitVec.ofNat 32
          ((((i + offset.toNat) % s.cfg.N / 2) &&& 0xFF) <<< (8 * ((i + offset.toNat) % s.cfg.N % 3))))
      else memRead s.cm i) ∧
    (∀ a < s.cfg.resetBytes, memRead f a = some 0x00#8) ∧
    (∀ j < s.cfg.N, ∀ k < 12, ∀ t < s.cfg.patBytes, ∀ w, memRead m j = some w →
      memRead f (s.cfg.ledBase j + s.cfg.patBytes * k + t) =
        (symbolEncoder s.cfg (BitVec.ofNat 2 (w.toNat / 2 ^ (22 - 2 * k))))[t]?) ∧
    ∀ a, s.cfg.fbBytes ≤ a → memRead f a = memRead s.fb a

/-- BUILD is exactly UPDMAP followed by PACKFRM (R57 corner case 1). -/
def Obligations.BuildIsUpdmapThenPackfrm : Prop :=
  ∀ (offset : Word) (s : State), execAll [.updmap offset, .packfrm] s = exec (.build offset) s

/-- The result of BUILD does not depend on what stood in either memory (R57, "Reads"): from any two states of one
instance that meet the invariant the memories become equal data, all bytes and entries written. -/
def Obligations.BuildForgetsHistory : Prop :=
  ∀ (offset : Word) (s s' t t' : State), Inv s → Inv s' → s'.cfg = s.cfg →
    exec (.build offset) s = .next t → exec (.build offset) s' = .next t' →
    t.cm = t'.cm ∧ t.fb = t'.fb ∧ FrameWritten t ∧ MapWritten t

/-- R58: NOP, whatever its operand bits, is accepted (BUSY is set), completes from every state (BUSY is cleared,
`cmd_done` is raised) and changes no other state. -/
def Obligations.NopChangesNothing : Prop :=
  (∀ s : State, exec .nop s = .next (completed s)) ∧
  (∀ s : State, busyBit (startOperation .nop s).status = true) ∧
  ∀ arg1 arg0 : Word, decodeWord (assemble 0#3 arg1 arg0) = .nop

/-- R60: the reserved opcode, whatever its operand bits, completes from every state with ERR_RSVD set and changes
nothing else; the next operation does what it would have done without it, and ERR_RSVD stays set. -/
def Obligations.ReservedOpcodeRecorded : Prop :=
  (∀ s : State, exec .reserved7 s = .next { completed s with status := (s.status &&& 0b110#3) ||| 0b100#3 }) ∧
  (∀ (i : Instr) (s t u : State), exec .reserved7 s = .next t → exec i s = .next u →
    exec i t = .next { u with status := u.status ||| 0b100#3 }) ∧
  ∀ arg1 arg0 : Word, decodeWord (assemble 7#3 arg1 arg0) = .reserved7

/-! ## All operations -/

/-- Every operation completes from every state: BUSY is 0 afterwards and `cmd_done` is raised (R59, R35). -/
def Obligations.EveryOperationCompletes : Prop :=
  ∀ (i : Instr) (s : State), ∃ t, exec i s = .next t ∧ busyBit t.status = false ∧ t.cmdDone = true

/-- Which operations store where (R51), which writes `PAT` (R14), and that no operation touches a parameter, the
sequencer, HOST's state or TRANSPORT's. -/
def Obligations.OperationFrame : Prop :=
  ∀ (i : Instr) (s t : State), exec i s = .next t →
    ((∀ off color, i ≠ .packclr off color) → i ≠ .packrst → i ≠ .packfrm → (∀ o, i ≠ .build o) → t.fb = s.fb) ∧
    ((∀ o, i ≠ .updmap o) → (∀ o, i ≠ .build o) → t.cm = s.cm) ∧
    ((∀ sym, i ≠ .enc sym) → t.pat = s.pat ∧ t.patWritten = s.patWritten) ∧
    t.cfg = s.cfg ∧ t.seq = s.seq ∧ t.lastTs = s.lastTs ∧ t.frameCounter = s.frameCounter ∧
    t.hostPhase = s.hostPhase ∧ t.offered = s.offered ∧ t.fbRdata = s.fbRdata ∧ t.cmRdata = s.cmRdata ∧ t.patOut = s.patOut ∧
    t.busConfig = s.busConfig ∧ t.busPin = s.busPin ∧ t.xfer = s.xfer ∧ t.wire = s.wire ∧ t.inputs = s.inputs

/-- R64: an error bit is set after an operation exactly where it was set before or the operation is the one the table
names under its condition. -/
def Obligations.ErrorsOnlyAsTabled : Prop :=
  ∀ (i : Instr) (s t : State), exec i s = .next t →
    (boundsBit t.status = true ↔ boundsBit s.status = true ∨
      ∃ off color, i = .packclr off color ∧ s.cfg.fbBytes < off.toNat + s.cfg.bytesPerLed) ∧
    (rsvdBit t.status = true ↔ rsvdBit s.status = true ∨ i = .reserved7)

/-- The error bits are sticky through every step that is not a reset (R16, R67). -/
def Obligations.ErrorBitsSticky : Prop :=
  ∀ s t : State, step s = .next t →
    (∀ rest, s.inputs ≠ .reset :: rest) → (∀ v w n rest, s.inputs ≠ .edge true v w n :: rest) →
    (boundsBit s.status = true → boundsBit t.status = true) ∧ (rsvdBit s.status = true → rsvdBit t.status = true)

/-- No operation reads the error bits (R16): with more of them set at the start, the same happens, and they are set at
the end as well. -/
def Obligations.ErrorBitsNotRead : Prop :=
  ∀ (i : Instr) (e : BitVec 3) (s t : State), exec i s = .next t →
    exec i { s with status := s.status ||| e } = .next { t with status := t.status ||| (e &&& 0b110#3) }

/-- R28: PACKRST, PACKCLR, UPDMAP, PACKFRM (with the map written) and BUILD are idempotent: the second time nothing
changes but the model's draw counter. -/
def Obligations.OperationsIdempotent : Prop :=
  ∀ (i : Instr) (s t : State), Inv s → i ≠ .nop → (∀ sym, i ≠ .enc sym) → i ≠ .reserved7 →
    (i = .packfrm → MapWritten s) → exec i s = .next t →
    ∃ u, exec i t = .next u ∧ { u with draws := t.draws } = t

/-! ## The core write by write (spec/10_state.md R21, spec/30_encoding.md R35) -/

/-- The sequencer refines the operation level (R6): accepted on an idle sequencer, after its writes an operation has
left exactly the state `exec` gives. NOP, a refused PACKCLR and the reserved opcode take one step without a write (the
model's inference, log 9). -/
def Obligations.SequencerRefinesOperation : Prop :=
  ∀ (i : Instr) (s : State), s.cfg.CoreOK → s.seq = none →
    exec i s = .next (repeatOp microStep (writeCount s.cfg i) (startOperation i s))

/-- What a reader that races an operation can see (R86, R21): after any number of the operation's writes every byte of
`FB` is as it was before the operation or as the operation leaves it. -/
def Obligations.RacingByteIsOldOrNew : Prop :=
  ∀ (i : Instr) (s t : State) (n a : Nat), s.cfg.CoreOK → s.seq = none → exec i s = .next t →
    memRead (repeatOp microStep n (startOperation i s)).fb a = memRead s.fb a ∨
    memRead (repeatOp microStep n (startOperation i s)).fb a = memRead t.fb a

/-- BUSY stays 1 from acceptance until the last write, for every operation (R35, R16); for NOP, a refused PACKCLR and the
reserved opcode, until the one step they take without a write (the model's inference, log 9). -/
def Obligations.BusyUntilLastWrite : Prop :=
  ∀ (i : Instr) (s : State) (n : Nat), s.cfg.CoreOK → n < writeCount s.cfg i →
    busyBit (repeatOp microStep n (startOperation i s)).status = true ∧
    (repeatOp microStep n (startOperation i s)).seq.isSome = true

/-- A busy core does not accept (R35, R90), and goes on. At an edge it performs the writes of that cycle, whatever is
presented, and HOST holds that on the port: it keeps its duty only by presenting the very same command at the next edge
(R90; the form is the model's choice, log 20). A command HOST issues, and HOST itself, wait while it performs its next
write; so it does with no input at all. With a transfer pending as well, one step is the core's next write or the
transport's next read, which of them nothing says (R86, U4; the form is the model's choice, log 8), also while HOST waits
for the transfer's end (for a background transfer the model's choice, log 21). A submission to a
busy core (R86 broken) starts the transfer and reads no byte: under a blocking transport HOST is held in the call
meanwhile (the model's choice, log 8). -/
def Obligations.BusyCoreDoesNotAccept : Prop :=
  ∀ (s : State) (rest : List Event), s.cfg.CoreOK → busyBit s.status = true →
    (∀ v w n, step { s with inputs := .edge false v w n :: rest } =
      .next (repeatOp microStep n
        { s with inputs := rest, cmdDone := false, offered := if v then some w else none })) ∧
    (∀ w n t, step { s with inputs := .edge false true w n :: rest } = .next t →
      ∀ rst v w' n', EventDuty (.edge rst v w' n') t → v = true ∧ w' = w) ∧
    (∀ w, ∃ t, step { s with inputs := .command w :: rest } = .next t ∧ t.inputs = .command w :: rest ∧
      t.offered = some w) ∧
    (∀ (l : List Event) (port : Option CmdWord),
      (l = [] ∧ port = s.offered) ∨ (∃ w, l = .command w :: rest ∧ port = some w) ∨
        (l = .await :: rest ∧ port = s.offered) →
      s.xfer = none →
      step { s with inputs := l } = .next (microStep { s with inputs := l, cmdDone := false, offered := port })) ∧
    (∀ (l : List Event) (port : Option CmdWord),
      (l = [] ∧ port = s.offered) ∨ (∃ w, l = .command w :: rest ∧ port = some w) ∨
        (l = .await :: rest ∧ port = s.offered) ∨ (l = .awaitTransfer :: rest ∧ port = s.offered) →
      s.seq ≠ none → s.xfer ≠ none → ∃ t, step { s with inputs := l } = .next t ∧
        (t = microStep { s with inputs := l, cmdDone := false, offered := port, draws := s.draws + 1 } ∨
          t = xferRead { s with inputs := l, cmdDone := false, offered := port, draws := s.draws + 1 })) ∧
    ∀ (length pin : Nat) (bus : BusConfig), s.busConfig = some bus → s.busPin = some pin → s.xfer = none →
      0 < length → length ≤ bus.maxXfer → length ≤ s.cfg.fbBytes →
      step { s with inputs := .transfer length true :: rest } = .next { s with
        inputs := if s.cfg.blocking then .awaitTransfer :: rest else rest
        cmdDone := false
        xfer := some { next := 0, length := length, held := [] } }

/-- An idle core accepts a valid command at the edge (R35): it samples the word presented and starts that word's
operation, BUSY is set, the sequencer is at work, and nothing is left on the port. Without a valid command the edge only
ends the pulse of `cmd_done`, and what HOST may have held on the port is dropped (against its duty of R90; that State
records it is the model's choice, log 20). That no write falls on the acceptance edge itself, so that `FB`, `CM` and
`PAT` are still as they were, is the model's choice (log 19), and so is that an error's bit rises there (log 18). -/
def Obligations.IdleCoreAcceptsAtEdge : Prop :=
  ∀ (s : State) (w : CmdWord) (n : Nat) (rest : List Event), s.cfg.CoreOK → busyBit s.status = false →
    step { s with inputs := .edge false false w n :: rest } =
      .next { s with inputs := rest, cmdDone := false, offered := none } ∧
    ∃ t, step { s with inputs := .edge false true w n :: rest } = .next t ∧
      t = startOperation (decodeWord w) { s with inputs := rest, cmdDone := false, offered := none } ∧
      busyBit t.status = true ∧ t.seq.isSome = true ∧ t.cmdDone = false ∧ t.offered = none ∧ t.inputs = rest ∧
      t.fb = s.fb ∧ t.cm = s.cm ∧ t.pat = s.pat

/-! ## Reset (spec/70_reset_and_hazards.md) -/

/-- The reset values the spec gives (R23, R74): STATUS zero, the sequencer idle, nothing written in `CM` and `FB`,
`PAT` not written, the tick clock zero, the parameters as configured. -/
def Obligations.ResetValues : Prop :=
  ∀ c : Config, (State.resetOf c).status = 0b000#3 ∧ (State.resetOf c).seq = none ∧
    (∀ i, memRead (State.resetOf c).cm i = none) ∧ (∀ a, memRead (State.resetOf c).fb a = none) ∧
    (State.resetOf c).patWritten = false ∧ (State.resetOf c).lastTs = 0#32 ∧
    (State.resetOf c).frameCounter = 0#32 ∧ (State.resetOf c).cfg = c

/-- Reset wins at an edge over acceptance and completion, whatever the core is doing and whatever is presented (R69,
R83): STATUS is cleared, the operation abandoned without `cmd_done`, nothing counts as written since reset (R24), and
HOST's clock and the transport are not reached (R84(b)). The RESET action does the same. A command presented at such an
edge is not accepted (R83). What is then on the command port is the model's choice (log 20): a command presented at the
edge stays there for HOST to hold on, since R90 names acceptance as the only end of that duty; an edge without a valid
command drops what HOST held; the RESET action leaves the port as it is. -/
def Obligations.ResetWinsAtTheEdge : Prop :=
  ∀ (s : State) (v : Bool) (w : CmdWord) (n : Nat) (rest : List Event) (e : Event),
    s.cfg.CoreOK → e = .edge true v w n ∨ e = .reset → s.inputs = e :: rest →
    ∃ t, step s = .next t ∧ t.status = 0b000#3 ∧ t.seq = none ∧ t.cmdDone = false ∧
      (∀ i, memRead t.cm i = none) ∧ (∀ a, memRead t.fb a = none) ∧ t.patWritten = false ∧ t.pat = s.pat ∧
      t.lastTs = s.lastTs ∧ t.frameCounter = s.frameCounter ∧ t.hostPhase = s.hostPhase ∧ t.wire = s.wire ∧
      t.busConfig = s.busConfig ∧ t.busPin = s.busPin ∧ t.xfer.isSome = s.xfer.isSome ∧ t.inputs = rest ∧
      t.cfg = s.cfg ∧ t.offered = if e = .edge true v w n then (if v then some w else none) else s.offered

/-- A transfer pending at a core reset, by an edge with `rst` or by the RESET action, goes on reading what stood in `FB`
(R84(b)): after the step it is at the same position with the same length, every written byte it could have read before,
at any address, it reads after, and what was a free draw is one still (log 7). -/
def Obligations.ResetLeavesTransferItsBytes : Prop :=
  ∀ (s : State) (x : Transfer) (v : Bool) (w : CmdWord) (n : Nat) (rest : List Event) (e : Event),
    Inv s → s.xfer = some x → e = .edge true v w n ∨ e = .reset → s.inputs = e :: rest →
    ∃ t x', step s = .next t ∧ t.xfer = some x' ∧ x'.next = x.next ∧ x'.length = x.length ∧
      (∀ (a : Nat) (b : Byte) (d : Nat),
        memRead s.fb a = some b ∨ (memRead s.fb a = none ∧ memRead x.held a = some b) →
        xferByte { x' with next := a } t.fb d = b) ∧
      ∀ a d : Nat, xferByte { x' with next := a } t.fb d = xferByte { x with next := a } s.fb d

/-! ## HOST and TRANSPORT (spec/60_exceptions.md) -/

/-- A read port returns what has been written and changes nothing but its own output (R28; the draw counter is the
model's own, log 2). R18 and R19 say only that a cell beyond the end does not exist; that a read of it stops the run, and
by these names, is the model's choice (log 10). While BUSY = 1 R90 and U17 leave the value open between the old and the
new contents of the cell; that the port gives what stands there after the writes performed so far is the model's
inference (log 9). -/
def Obligations.ReadPortsReturnContents : Prop :=
  ∀ (s : State) (rest : List Event), s.cfg.CoreOK →
    (∀ a b, memRead s.fb a = some b → a < s.cfg.fbBytes →
      step { s with inputs := .readFb a :: rest } =
        .next { s with inputs := rest, cmdDone := false, fbRdata := b, draws := s.draws + 1 }) ∧
    (∀ i w, memRead s.cm i = some w → i < s.cfg.N →
      step { s with inputs := .readCm i :: rest } =
        .next { s with inputs := rest, cmdDone := false, cmRdata := w, draws := s.draws + 1 }) ∧
    (s.patWritten = true →
      step { s with inputs := .readPat :: rest } =
        .next { s with inputs := rest, cmdDone := false, patOut := s.pat, draws := s.draws + s.cfg.patBytes }) ∧
    (∀ a, s.cfg.fbBytes ≤ a → step { s with inputs := .readFb a :: rest } = .fault .noSuchFbAddress) ∧
    (∀ i, s.cfg.N ≤ i → step { s with inputs := .readCm i :: rest } = .fault .noSuchCmIndex)

/-- Reading what nothing has written since reset, a byte of `FB`, an entry of `CM` or `PAT` before the first ENC, gives a
free value, and the next such read another one (R24): the draw numbers are used up, one for each cell or byte of `PAT`.
What the value is, nothing says (the form is the model's, log 2). The same while BUSY = 1, for a cell that the operation
in progress has not written so far (log 9). -/
def Obligations.UnwrittenReadsAreFreshDraws : Prop :=
  ∀ (s : State) (rest : List Event), s.cfg.CoreOK →
    (∀ a, memRead s.fb a = none → a < s.cfg.fbBytes → ∃ t, step { s with inputs := .readFb a :: rest } = .next t ∧
      t.fbRdata = Config.drawByte s.draws ∧ t.draws = s.draws + 1) ∧
    (∀ i, memRead s.cm i = none → i < s.cfg.N → ∃ t, step { s with inputs := .readCm i :: rest } = .next t ∧
      t.cmRdata = Config.drawWord s.draws ∧ t.draws = s.draws + 1) ∧
    (s.patWritten = false → ∃ t, step { s with inputs := .readPat :: rest } = .next t ∧
      t.patOut = ((List.range s.cfg.patBytes).map fun i => Config.drawByte (s.draws + i)) ∧
      t.draws = s.draws + s.cfg.patBytes)

/-- R75: the source's elapsed-time formula with its wraparound branch, never above `TS_MAX`; across a wrap it is one
less than the modular distance (U8); and the transition from Idle to Transmitting fires exactly where it has reached
the interval. -/
def Obligations.ElapsedFormula : Prop :=
  (∀ (now : BitVec 32) (ok : Bool) (s : State), s.hostPhase = .idle →
    ((pollScheduler now ok s).hostPhase = .transmitting ↔ s.cfg.intervalMs ≤ elapsed now s.lastTs)) ∧
  ∀ now last : BitVec 32,
    (last.toNat ≤ now.toNat → elapsed now last = now.toNat - last.toNat) ∧
    (now.toNat < last.toNat → elapsed now last = (2 ^ 32 - 1 - last.toNat) + now.toNat ∧
      elapsed now last + 1 = (now - last).toNat) ∧
    elapsed now last ≤ 2 ^ 32 - 1

/-- R77: a poll before the interval has elapsed issues no command and changes nothing of HOST's state. -/
def Obligations.PollBeforeIntervalDoesNothing : Prop :=
  ∀ (s : State) (now : BitVec 32) (ok : Bool) (rest : List Event), s.cfg.CoreOK →
    s.inputs = .poll now ok :: rest →
    elapsed now s.lastTs < s.cfg.intervalMs → step s = .next { s with inputs := rest, cmdDone := false }

/-- R76: a poll after the interval, with the core ready and the transport set up and free, runs the tick in four steps:
BUILD with the frame counter as offset, the submission, counter and timestamp, back to Idle. R76 gives the order of these
actions; that they are four steps which nothing interrupts, the transport's reads included, so that the background
transfer is still at its first byte when the tick ends, is the model's inference (log 15): R73 and R76 leave open how far
the transport has read by then. -/
def Obligations.TickSequence : Prop :=
  ∀ (s : State) (now : BitVec 32) (rest : List Event) (bus : BusConfig), s.inputs = .poll now true :: rest →
    s.cfg.CoreOK → s.hostPhase = .idle → s.cfg.intervalMs ≤ elapsed now s.lastTs → busyBit s.status = false →
    s.xfer = none → s.cfg.blocking = false →
    s.busConfig = some bus → s.cfg.fbBytes ≤ bus.maxXfer → s.busPin.isSome = true →
    ∃ b, exec (.build s.frameCounter) s = .next b ∧
      Sys2Proof.core.run 4 s = .next { b with
        inputs := rest, cmdDone := false, xfer := some { next := 0, length := s.cfg.fbBytes, held := [] }
        frameCounter := s.frameCounter + 1#32, lastTs := now, hostPhase := .idle, offered := none }

/-- The source's end-to-end property (S7; R57, R73, R76): with a blocking transport one tick puts exactly the frame of
the current offset on the wire, `FB_BYTES` bytes that begin with the zero reset region, and no transfer is left. That
the tick is four steps which nothing interrupts is the model's inference (log 15). -/
def Obligations.TickEmitsExactFrame : Prop :=
  ∀ (s : State) (now : BitVec 32) (rest : List Event) (bus : BusConfig), s.inputs = .poll now true :: rest →
    s.cfg.CoreOK → s.hostPhase = .idle → s.cfg.intervalMs ≤ elapsed now s.lastTs → busyBit s.status = false →
    s.xfer = none → s.cfg.blocking = true →
    s.busConfig = some bus → s.cfg.fbBytes ≤ bus.maxXfer → s.busPin.isSome = true →
    ∃ t, Sys2Proof.core.run 4 s = .next t ∧ t.xfer = none ∧ t.frameCounter = s.frameCounter + 1#32 ∧
      t.lastTs = now ∧ t.hostPhase = .idle ∧ t.inputs = rest ∧
      t.wire = s.wire ++ (List.replicate s.cfg.resetBytes 0x00#8 ++
        (List.range s.cfg.N).flatMap fun j => ledBytes s.cfg (colorAt s.cfg.N s.frameCounter.toNat j)) ∧
      t.wire.length = s.wire.length + s.cfg.fbBytes

/-- R73: a transfer in flight reads the written bytes in ascending order, each once, and is over after the last. The
transport reads its next byte in the step of its own action, and, with the core idle, in every step in which HOST does
nothing or waits for the transfer's end, in a blocking call or (the model's choice, log 21) for a background transfer; so
with nothing else to do a transfer goes out whole in as many steps (that such a step is one read is the model's form,
log 6). -/
def Obligations.TransferReadsInOrder : Prop :=
  (∀ (s : State) (rest : List Event), s.cfg.CoreOK →
    step { s with inputs := .xferRead :: rest } = .next (xferRead { s with inputs := rest, cmdDone := false }) ∧
    (s.seq = none → s.xfer ≠ none → ∀ l : List Event, l = [] ∨ l = .awaitTransfer :: rest →
      step { s with inputs := l } = .next (xferRead { s with inputs := l, cmdDone := false })) ∧
    (s.xfer = none → step { s with inputs := .awaitTransfer :: rest } =
      .next { s with inputs := rest, cmdDone := false })) ∧
  ∀ (s : State) (length : Nat) (held : FrameBuf) (byte : Nat → Byte), 0 < length →
    s.xfer = some { next := 0, length := length, held := held } →
    (∀ a < length, memRead s.fb a = some (byte a)) →
    repeatOp xferRead length s =
      { s with wire := s.wire ++ (List.range length).map byte, xfer := none, draws := s.draws + length } ∧
    (s.cfg.CoreOK → s.seq = none → s.inputs = [] → Sys2Proof.core.run length s = .next { s with
      wire := s.wire ++ (List.range length).map byte, xfer := none, draws := s.draws + length, cmdDone := false })

/-- A submission that the transport answers with a failure starts nothing and changes nothing, whatever the transport's
state: the model's choice (log 11), as the spec gives a failed `transfer` no effect on the transport and R78 speaks of
HOST alone. At the end of such a tick the reference HOST updates counter and timestamp all the same (R78), the
recommended one as its two parameters say, which R78 and N13 ask for. -/
def Obligations.FailedSubmission : Prop :=
  ∀ (s : State) (length : Nat) (now : BitVec 32) (rest : List Event), s.cfg.CoreOK →
    step { s with inputs := .transfer length false :: rest } = .next { s with inputs := rest, cmdDone := false } ∧
    (s.cfg.errorPolicy = .ignoreResult →
      step { s with inputs := .endTick now false :: rest } = .next { s with
        inputs := rest, cmdDone := false, frameCounter := s.frameCounter + 1#32, lastTs := now
        hostPhase := .idle }) ∧
    ∀ uc ut, s.cfg.errorPolicy = .skipTick uc ut →
      step { s with inputs := .endTick now false :: rest } = .next { s with
        inputs := rest, cmdDone := false
        frameCounter := s.frameCounter + (if uc then 1#32 else 0#32)
        lastTs := (if ut then now else s.lastTs), hostPhase := .idle }

/-- Where a submission stops the run, each stop by its own name: the transport not set up, a transfer in flight, a length
above the transport's maximum, a length above the buffer. R85(3), R86, U3 and R19 say only that HOST must not do this,
that what then happens is unspecified, or that the byte does not exist; that the run stops, and by these names, is the
model's choice (log 10). -/
def Obligations.SubmissionStops : Prop :=
  ∀ (s : State) (length : Nat) (rest : List Event), s.cfg.CoreOK →
    (s.busConfig = none ∨ s.busPin = none →
      step { s with inputs := .transfer length true :: rest } = .refused .transportNotReady) ∧
    ∀ bus pin, s.busConfig = some bus → s.busPin = some pin →
      (s.xfer ≠ none → step { s with inputs := .transfer length true :: rest } = .refused .transferPending) ∧
      (s.xfer = none → bus.maxXfer < length →
        step { s with inputs := .transfer length true :: rest } = .refused .overlongTransfer) ∧
      (s.xfer = none → length ≤ bus.maxXfer → s.cfg.fbBytes < length →
        step { s with inputs := .transfer length true :: rest } = .fault .noSuchFbAddress)

/-- In a well-formed instance a HOST that keeps its duties (R79, R85 to R90) never stops the machine. When a command counts
as issued for these duties is the model's choice (log 22), and so is the form of the duty to hold it (log 20). -/
def Obligations.DutifulHostNeverStops : Prop :=
  ∀ (s : State) (e : Event) (rest : List Event), s.cfg.OK → s.inputs = e :: rest → EventDuty e s →
    ∃ t, step s = .next t

/-! ## Building an instance, setting up the transport, complete frames -/

/-- A configuration that is not well formed is refused when the instance is built (R9, R63(a), U9; with the ranges of
R7), and a state that holds one has no step (the refusals' form is the model's, log 13). Whatever HOST
does, a built instance keeps its configuration and the machine invariant for ever. -/
def Obligations.OnlyWellFormedInstancesRun : Prop :=
  (∀ s : State, ¬ s.cfg.CoreOK → step s = .refused .configurationError) ∧
  (∀ c : Config, ¬ c.Buildable → buildInstance c = .refused .configurationError) ∧
  ∀ c : Config, c.Buildable → buildInstance c = .next (State.resetOf c) ∧
    ∀ (l : List Event) (n : Nat) (t : State),
      Sys2Proof.core.run n { State.resetOf c with inputs := l } = .next t → t.cfg = c ∧ Inv t

/-- R73, R85(3): `configure` and `begin` set the transport up with `(F_SPI, MAX_XFER)` and `PIN`, once; a second call
stops the run by name (the model's choice, log 10). In a well-formed instance that has been set up so, a SUBMIT is
answered whenever no transfer is pending: the frame fits one transfer (R91). -/
def Obligations.TransportSetUpOnce : Prop :=
  ∀ (s : State) (rest : List Event), s.cfg.CoreOK →
    (s.busConfig = none → s.busPin = none → Sys2Proof.core.run 2 { s with inputs := setUpTransport ++ rest } =
      .next { s with
        inputs := rest, cmdDone := false
        busConfig := some { fSpi := s.cfg.fSpi, maxXfer := s.cfg.maxXfer }, busPin := some s.cfg.pin }) ∧
    (s.busConfig ≠ none → step { s with inputs := .configure :: rest } = .refused .transportAlreadySetUp) ∧
    (s.busPin ≠ none → step { s with inputs := .beginPins :: rest } = .refused .transportAlreadySetUp) ∧
    (s.cfg.TimingOK → Inv s → s.busConfig ≠ none → s.busPin ≠ none → s.xfer = none →
      ∀ ok, ∃ t, step { s with inputs := submit s.cfg ok :: rest } = .next t)

/-- Which bytes each operation rewrites, and when a complete frame stands in the buffer (R79, R85(5), R87): after BUILD,
after PACKFRM, after PACKRST with a PACKLED for every LED, each of which rewrites every byte; and a complete frame in
which PACKLED has changed one LED is complete. So a tick's submission meets HOST's duties and the scheduler's
discipline. -/
def Obligations.RebuildsLeaveCompleteFrame : Prop :=
  (∀ (i : Instr) (s t : State) (a : Nat), s.cfg.CoreOK → exec i s = .next t →
    (i.storesAt s.cfg a = true → (memRead t.fb a).isSome = true) ∧
    (i.storesAt s.cfg a = false → memRead t.fb a = memRead s.fb a)) ∧
  (∀ (s t : State) (i : Instr), s.cfg.CoreOK → i = .packfrm ∨ (∃ o, i = .build o) → exec i s = .next t →
    FrameComplete t ∧ RewritesFrame s.cfg [i]) ∧
  (∀ (s t : State) (col : Nat → Word) (ops : List Instr), s.cfg.CoreOK →
    ops = .packrst :: (List.range s.cfg.N).map (fun j => .packclr (BitVec.ofNat 32 (s.cfg.ledBase j)) (col j)) →
    execAll ops s = .next t → FrameHolds t col ∧ RewritesFrame s.cfg ops) ∧
  (∀ (s t : State) (col : Nat → Word) (j : Nat) (color : Word), s.cfg.CoreOK → FrameHolds s col → j < s.cfg.N →
    exec (.packclr (BitVec.ofNat 32 (s.cfg.ledBase j)) color) s = .next t →
    FrameHolds t fun i => if i = j then color else col i) ∧
  ∀ (s t : State) (offset : Word) (ok : Bool), s.cfg.CoreOK → exec (.build offset) s = .next t → s.xfer = none →
    s.busConfig = some { fSpi := s.cfg.fSpi, maxXfer := s.cfg.maxXfer } → s.busPin = some s.cfg.pin →
    SchedulerDuty [.build offset] (submit s.cfg ok) t
end

