-- ==== Sys2Proof/Laws/Encoder.lean ====
section
/-! SUPPORT. The Symbol Encoder under a well-formed configuration, and byte sequences cut into equal pieces. -/

namespace Sys2Proof.Machine

/-- Every pattern has `PAT_BYTES` bytes (spec/00_scope.md R9, spec/40_symbol_encoder.md R46(a)). -/
theorem symbolEncoder_length {c : Config} (hc : c.CoreOK) (s : BitVec 2) :
    (symbolEncoder c s).length = c.patBytes := by
  obtain ⟨-, -, -, -, -, -, ⟨h0, h1, h2, h3⟩, -⟩ := hc
  unfold symbolEncoder
  split <;> assumption

theorem patBytes_pos {c : Config} (hc : c.CoreOK) : 0 < c.patBytes := by
  obtain ⟨-, -, ⟨-, h⟩, -⟩ := hc
  unfold Config.patBytes
  omega

theorem bytesPerLed_pos {c : Config} (hc : c.CoreOK) : 0 < c.bytesPerLed := by
  have := patBytes_pos hc
  unfold Config.bytesPerLed
  omega

/-- The four patterns are pairwise distinct (spec/00_scope.md R9, spec/40_symbol_encoder.md R46(a)). -/
theorem symbolEncoder_inj {c : Config} (hc : c.CoreOK) {s s' : BitVec 2}
    (h : symbolEncoder c s = symbolEncoder c s') : s = s' := by
  obtain ⟨-, -, -, -, -, -, -, hn⟩ := hc
  simp only [List.nodup_cons, List.mem_cons, not_or] at hn
  obtain ⟨⟨h01, h02, h03, -⟩, ⟨h12, h13, -⟩, ⟨h23, -⟩, -⟩ := hn
  have : ∀ x : BitVec 2, x = 0#2 ∨ x = 1#2 ∨ x = 2#2 ∨ x = 3#2 := by decide
  rcases this s with rfl | rfl | rfl | rfl <;> rcases this s' with rfl | rfl | rfl | rfl <;>
    simp_all [symbolEncoder]

theorem color24_toNat (color : Word) : (color24 color).toNat = color.toNat % 2 ^ 24 := by
  rw [color24, BitVec.toNat_and]
  exact Nat.and_two_pow_sub_one_eq_mod color.toNat 24

/-- A table index as a number (spec/30_encoding.md R37). -/
theorem pairIndex_toNat (color : Word) (k : Nat) :
    (pairIndex color k).toNat = color.toNat % 2 ^ 24 / 2 ^ (22 - 2 * k) % 4 := by
  rw [pairIndex, BitVec.toNat_setWidth, BitVec.toNat_ushiftRight, Nat.shiftRight_eq_div_pow, color24_toNat]

theorem color24_getLsbD (color : Word) {i : Nat} (hi : i < 24) : (color24 color).getLsbD i = color.getLsbD i := by
  have : ∀ i < 24, (0x00FFFFFF#32).getLsbD i = true := by decide
  simp [color24, this i hi]

/-- A table index as two bits of the color (spec/30_encoding.md R37). -/
theorem pairIndex_getLsbD (color : Word) {k : Nat} (hk : k < 12) :
    (pairIndex color k).getLsbD 1 = color.getLsbD (23 - 2 * k) ∧
    (pairIndex color k).getLsbD 0 = color.getLsbD (22 - 2 * k) := by
  unfold pairIndex
  constructor
  · rw [BitVec.getLsbD_setWidth, BitVec.getLsbD_ushiftRight, color24_getLsbD _ (by omega),
      show 22 - 2 * k + 1 = 23 - 2 * k by omega]
    simp
  · rw [BitVec.getLsbD_setWidth, BitVec.getLsbD_ushiftRight, color24_getLsbD _ (by omega)]
    simp

/-- Only bits 23-0 of a color matter (spec/30_encoding.md R37, R39). -/
theorem pairIndex_congr {c c' : Word} (h : c.toNat % 2 ^ 24 = c'.toNat % 2 ^ 24) (k : Nat) :
    pairIndex c k = pairIndex c' k := by
  apply BitVec.eq_of_toNat_eq
  rw [pairIndex_toNat, pairIndex_toNat, h]

/-- Position `PAT_BYTES*k + t` of a sequence of pieces is byte `t` of piece `k`. -/
theorem slot_div_mod {p : Nat} (hp : 0 < p) (k : Nat) {t : Nat} (ht : t < p) :
    (p * k + t) / p = k ∧ (p * k + t) % p = t := by
  constructor
  · rw [Nat.mul_add_div hp, Nat.div_eq_of_lt ht, Nat.add_zero]
  · rw [Nat.mul_add_mod, Nat.mod_eq_of_lt ht]

/-- Byte `t` of pattern `k` lies inside one LED's bytes. -/
theorem slot_lt_bytesPerLed {c : Config} {k t : Nat} (hk : k < 12) (ht : t < c.patBytes) :
    c.patBytes * k + t < c.bytesPerLed := by
  have : c.patBytes * (k + 1) ≤ c.patBytes * 12 := Nat.mul_le_mul_left _ hk
  unfold Config.bytesPerLed
  nlinarith

/-- The sequence of `n` pieces of `l` elements each, element by element. -/
theorem getElem?_flatMap_range {α : Type} {f : Nat → List α} {l : Nat} (hl : 0 < l) :
    ∀ n, (∀ k < n, (f k).length = l) → ∀ x,
      ((List.range n).flatMap f)[x]? = if x < n * l then (f (x / l))[x % l]? else none := by
  intro n
  induction n with
  | zero => simp
  | succ n ih =>
    intro hf x
    have hlen : ((List.range n).flatMap f).length = n * l := by
      rw [List.length_flatMap, List.map_congr_left (g := fun _ => l) fun k hk => hf k (by simp at hk; omega)]
      simp
    rw [List.range_succ, List.flatMap_append]
    by_cases h : x < n * l
    · rw [List.getElem?_append_left (by omega), ih (fun k hk => hf k (by omega)), if_pos h, if_pos (by nlinarith)]
    · rw [List.getElem?_append_right (by omega), hlen]
      simp only [List.flatMap_cons, List.flatMap_nil, List.append_nil]
      by_cases h' : x < (n + 1) * l
      · have hd : x / l = n := by
          exact Nat.div_eq_of_lt_le (by omega) h'
        have hm : x % l = x - n * l := by
          rw [Nat.mod_eq_sub_mul_div, hd, Nat.mul_comm]
        rw [if_pos h', hd, hm]
      · rw [if_neg h', List.getElem?_eq_none]
        have := hf n (by omega)
        have : (n + 1) * l = n * l + l := by ring
        omega

/-- One LED's bytes, by position (spec/20_memory.md R29). -/
theorem ledBytes_getElem? {c : Config} (hc : c.CoreOK) (color : Word) (x : Nat) :
    (ledBytes c color)[x]? =
      if x < c.bytesPerLed then (symbolEncoder c (pairIndex color (x / c.patBytes)))[x % c.patBytes]? else none :=
  getElem?_flatMap_range (patBytes_pos hc) 12 (fun _ _ => symbolEncoder_length hc _) x

theorem ledBytes_length {c : Config} (hc : c.CoreOK) (color : Word) : (ledBytes c color).length = c.bytesPerLed := by
  rw [ledBytes, List.length_flatMap, List.map_congr_left (g := fun _ => c.patBytes) fun k _ =>
    symbolEncoder_length hc _]
  simp [Config.bytesPerLed]
  omega

/-- Byte `t` of pattern `k` within one LED's bytes (spec/20_memory.md R29). -/
theorem ledBytes_slot {c : Config} (hc : c.CoreOK) (color : Word) {k t : Nat} (hk : k < 12) (ht : t < c.patBytes) :
    (ledBytes c color)[c.patBytes * k + t]? = (symbolEncoder c (pairIndex color k))[t]? := by
  obtain ⟨hd, hm⟩ := slot_div_mod (patBytes_pos hc) k ht
  rw [ledBytes_getElem? hc, if_pos (slot_lt_bytesPerLed hk ht), hd, hm]

end Sys2Proof.Machine
end

