-- ==== Sys2Proof/Laws/Encoding.lean ====
section
/-! SUPPORT. The fields of an assembled command word (spec/30_encoding.md R34). -/

namespace Sys2Proof

theorem assemble_toNat (op : BitVec 3) (arg1 arg0 : Word) :
    (assemble op arg1 arg0).toNat = op.toNat * 2 ^ 64 + arg1.toNat * 2 ^ 32 + arg0.toNat := by
  have h : (assemble op arg1 arg0).toNat = (op ++ (arg1 ++ arg0)).toNat := rfl
  have h0 := arg0.isLt
  have h1 := arg1.isLt
  have inner : (arg1 ++ arg0).toNat = arg1.toNat * 2 ^ 32 + arg0.toNat := by
    rw [BitVec.toNat_append, ← Nat.shiftLeft_add_eq_or_of_lt h0, Nat.shiftLeft_eq]
  have outer : (arg1 ++ arg0).toNat < 2 ^ 64 := (arg1 ++ arg0).isLt
  rw [h, BitVec.toNat_append, ← Nat.shiftLeft_add_eq_or_of_lt outer, Nat.shiftLeft_eq, inner, Nat.add_assoc]

@[simp] theorem opField_assemble (op : BitVec 3) (arg1 arg0 : Word) : opField (assemble op arg1 arg0) = op := by
  have h0 := arg0.isLt
  have h1 := arg1.isLt
  have h2 := op.isLt
  apply BitVec.eq_of_toNat_eq
  rw [opField, BitVec.extractLsb'_toNat, assemble_toNat, Nat.shiftRight_eq_div_pow]
  omega

@[simp] theorem arg1Field_assemble (op : BitVec 3) (arg1 arg0 : Word) :
    arg1Field (assemble op arg1 arg0) = arg1 := by
  have h0 := arg0.isLt
  have h1 := arg1.isLt
  have h2 := op.isLt
  apply BitVec.eq_of_toNat_eq
  rw [arg1Field, BitVec.extractLsb'_toNat, assemble_toNat, Nat.shiftRight_eq_div_pow]
  omega

@[simp] theorem arg0Field_assemble (op : BitVec 3) (arg1 arg0 : Word) :
    arg0Field (assemble op arg1 arg0) = arg0 := by
  have h0 := arg0.isLt
  have h1 := arg1.isLt
  have h2 := op.isLt
  apply BitVec.eq_of_toNat_eq
  rw [arg0Field, BitVec.extractLsb'_toNat, assemble_toNat, Nat.shiftRight_eq_div_pow]
  omega

@[simp] theorem symField_setWidth (sym : BitVec 2) : symField (sym.setWidth 32) = sym := by
  revert sym; decide

theorem symField_toNat (arg0 : Word) : (symField arg0).toNat = arg0.toNat % 4 := by
  rw [symField, BitVec.extractLsb'_toNat]
  rfl

/-! The eight opcodes of spec/30_encoding.md R33 on an assembled word. -/

@[simp] theorem decodeWord_op0 (a1 a0 : Word) : decodeWord (assemble 0#3 a1 a0) = .nop := by
  simp [decodeWord]
@[simp] theorem decodeWord_op1 (a1 a0 : Word) : decodeWord (assemble 1#3 a1 a0) = .enc (symField a0) := by
  simp [decodeWord]
@[simp] theorem decodeWord_op2 (a1 a0 : Word) : decodeWord (assemble 2#3 a1 a0) = .packrst := by
  simp [decodeWord]
@[simp] theorem decodeWord_op3 (a1 a0 : Word) : decodeWord (assemble 3#3 a1 a0) = .packclr a0 a1 := by
  simp [decodeWord]
@[simp] theorem decodeWord_op4 (a1 a0 : Word) : decodeWord (assemble 4#3 a1 a0) = .updmap a0 := by
  simp [decodeWord]
@[simp] theorem decodeWord_op5 (a1 a0 : Word) : decodeWord (assemble 5#3 a1 a0) = .packfrm := by
  simp [decodeWord]
@[simp] theorem decodeWord_op6 (a1 a0 : Word) : decodeWord (assemble 6#3 a1 a0) = .build a0 := by
  simp [decodeWord]
@[simp] theorem decodeWord_op7 (a1 a0 : Word) : decodeWord (assemble 7#3 a1 a0) = .reserved7 := by
  simp [decodeWord]

/-- A word is assembled from its own fields. -/
theorem assemble_fields (w : CmdWord) : assemble (opField w) (arg1Field w) (arg0Field w) = w := by
  apply BitVec.eq_of_toNat_eq
  have hw := w.isLt
  rw [assemble_toNat, opField, arg1Field, arg0Field, BitVec.extractLsb'_toNat, BitVec.extractLsb'_toNat,
    BitVec.extractLsb'_toNat, Nat.shiftRight_eq_div_pow, Nat.shiftRight_eq_div_pow, Nat.shiftRight_eq_div_pow]
  omega

end Sys2Proof
end

