-- ==== Sys2Proof/Laws/Memory.lean ====
section
/-! SUPPORT. The sparse memories: read after write, canonical form, and equality of canonical memories with equal
reads. -/

namespace Sys2Proof.Machine

variable {α : Type}

@[simp] theorem memRead_nil (a : Nat) : memRead ([] : List (Nat × α)) a = none := rfl

theorem memRead_cons (x : Nat × α) (m : List (Nat × α)) (a : Nat) :
    memRead (x :: m) a = if a = x.1 then some x.2 else memRead m a := rfl

/-- What a write does to every read (spec/20_memory.md R28: no effect beyond the cell written). -/
theorem memRead_memWrite (m : List (Nat × α)) (a b : Nat) (v : α) :
    memRead (memWrite m a v) b = if b = a then some v else memRead m b := by
  induction m with
  | nil => rfl
  | cons x m ih =>
    obtain ⟨k, w⟩ := x
    rcases Nat.lt_trichotomy a k with h | h | h
    · simp [memWrite, memRead_cons, h]
    · subst h
      by_cases hb : b = a <;> simp [memWrite, memRead_cons, hb]
    · have hw : memWrite ((k, w) :: m) a v = (k, w) :: memWrite m a v := by
        simp [memWrite, show ¬ a < k by omega, show a ≠ k by omega]
      simp only [hw, memRead_cons, ih]
      by_cases hk : b = k
      · simp [hk, show k ≠ a by omega]
      · simp [hk]

@[simp] theorem memRead_memWrite_same (m : List (Nat × α)) (a : Nat) (v : α) :
    memRead (memWrite m a v) a = some v := by
  simp [memRead_memWrite]

theorem memRead_memWrite_other (m : List (Nat × α)) {a b : Nat} (v : α) (h : b ≠ a) :
    memRead (memWrite m a v) b = memRead m b := by
  simp [memRead_memWrite, h]

/-- The entries after a write are the written one and entries that were there. -/
theorem mem_memWrite {m : List (Nat × α)} {a : Nat} {v : α} {x : Nat × α} (h : x ∈ memWrite m a v) :
    x = (a, v) ∨ x ∈ m := by
  induction m with
  | nil => simpa [memWrite] using h
  | cons y m ih =>
    unfold memWrite at h
    split_ifs at h with h1 h2
    · simpa using h
    · rcases List.mem_cons.mp h with h | h
      · exact .inl h
      · exact .inr (List.mem_cons_of_mem _ h)
    · rcases List.mem_cons.mp h with h | h
      · exact .inr (by simp [h])
      · exact (ih h).imp id (List.mem_cons_of_mem _)

@[simp] theorem wf_nil : Memory.wf ([] : List (Nat × α)) := List.Pairwise.nil

theorem wf_cons {x : Nat × α} {m : List (Nat × α)} :
    Memory.wf (x :: m) ↔ (∀ y ∈ m, x.1 < y.1) ∧ Memory.wf m := by
  simp [Memory.wf, List.pairwise_cons]

/-- A write keeps the canonical form. -/
theorem memWrite_wf {m : List (Nat × α)} (a : Nat) (v : α) (h : Memory.wf m) : Memory.wf (memWrite m a v) := by
  induction m with
  | nil => simp [memWrite, Memory.wf]
  | cons x m ih =>
    obtain ⟨hx, hm⟩ := wf_cons.mp h
    unfold memWrite
    split_ifs with h1 h2
    · refine wf_cons.mpr ⟨fun y hy => ?_, h⟩
      rcases List.mem_cons.mp hy with rfl | hy
      · exact h1
      · exact h1.trans (hx y hy)
    · exact wf_cons.mpr ⟨fun y hy => h2 ▸ hx y hy, hm⟩
    · refine wf_cons.mpr ⟨fun y hy => ?_, ih hm⟩
      rcases mem_memWrite hy with rfl | hy
      · simp only; omega
      · exact hx y hy

/-- A write below the size of the space keeps every key below it. -/
theorem memWrite_below {m : List (Nat × α)} {n a : Nat} (v : α) (h : Memory.below m n) (ha : a < n) :
    Memory.below (memWrite m a v) n := by
  intro x hx
  rcases mem_memWrite hx with rfl | hx
  · exact ha
  · exact h x hx

/-- A key that is read is listed. -/
theorem mem_of_memRead {m : List (Nat × α)} {a : Nat} {v : α} (h : memRead m a = some v) : (a, v) ∈ m := by
  induction m with
  | nil => simp at h
  | cons x m ih =>
    rw [memRead_cons] at h
    split_ifs at h with hx
    · simp only [Option.some.injEq] at h
      subst hx h
      exact List.mem_cons_self
    · exact List.mem_cons_of_mem _ (ih h)

/-- No key at or above the size of the space reads. -/
theorem memRead_eq_none_of_below {m : List (Nat × α)} {n a : Nat} (h : Memory.below m n) (ha : n ≤ a) :
    memRead m a = none := by
  rcases hr : memRead m a with _ | v
  · rfl
  · have := h _ (mem_of_memRead hr)
    simp only at this
    omega

theorem memRead_eq_none_of_lt {m : List (Nat × α)} {a : Nat} (h : ∀ y ∈ m, a < y.1) : memRead m a = none := by
  rcases hr : memRead m a with _ | v
  · rfl
  · have := h _ (mem_of_memRead hr)
    simp only at this
    omega

/-- Canonical memories with equal reads are equal data. -/
theorem memory_ext {m m' : List (Nat × α)} (h : Memory.wf m) (h' : Memory.wf m')
    (he : ∀ a, memRead m a = memRead m' a) : m = m' := by
  induction m generalizing m' with
  | nil =>
    cases m' with
    | nil => rfl
    | cons y m' => have := he y.1; simp [memRead_cons] at this
  | cons x m ih =>
    cases m' with
    | nil => have := he x.1; simp [memRead_cons] at this
    | cons y m' =>
      obtain ⟨hx, hm⟩ := wf_cons.mp h
      obtain ⟨hy, hm'⟩ := wf_cons.mp h'
      have key : x.1 = y.1 := by
        rcases Nat.lt_trichotomy x.1 y.1 with hlt | heq | hgt
        · have h1 := he x.1
          rw [memRead_cons, if_pos rfl, memRead_cons, if_neg hlt.ne,
            memRead_eq_none_of_lt fun z hz => hlt.trans (hy z hz)] at h1
          cases h1
        · exact heq
        · have h1 := he y.1
          rw [memRead_cons, if_neg hgt.ne, memRead_eq_none_of_lt fun z hz => hgt.trans (hx z hz),
            memRead_cons, if_pos rfl] at h1
          cases h1
      have val : x.2 = y.2 := by
        have h1 := he x.1
        rw [memRead_cons, if_pos rfl, memRead_cons, if_pos key] at h1
        exact Option.some.inj h1
      have rest : m = m' := by
        refine ih hm hm' fun a => ?_
        by_cases hax : a = x.1
        · rw [hax, memRead_eq_none_of_lt hx, key, memRead_eq_none_of_lt hy]
        · have h1 := he a
          rwa [memRead_cons, if_neg hax, memRead_cons, if_neg (key ▸ hax)] at h1
      rw [rest, Prod.ext key val]

/-- Reads of `MemWrite(addr, n, v)` (spec/00_scope.md R11). -/
theorem memRead_memWriteSeq (bs : List Byte) (a : Nat) (m : FrameBuf) (b : Nat) :
    memRead (memWriteSeq a bs m) b = if a ≤ b ∧ b < a + bs.length then bs[b - a]? else memRead m b := by
  induction bs generalizing a m with
  | nil => simp [memWriteSeq]
  | cons x bs ih =>
    simp only [memWriteSeq, ih, memRead_memWrite, List.length_cons]
    rcases Nat.lt_trichotomy b a with h | h | h
    · rw [if_neg (by omega), if_neg (by omega), if_neg (by omega)]
    · subst h
      rw [if_neg (by omega), if_pos rfl, if_pos (by omega)]
      simp
    · by_cases hb : b < a + (bs.length + 1)
      · rw [if_pos (by omega), if_pos (by omega), show b - a = (b - (a + 1)) + 1 by omega, List.getElem?_cons_succ]
      · rw [if_neg (by omega), if_neg (by omega), if_neg (by omega)]

theorem memWriteSeq_append (xs ys : List Byte) (a : Nat) (m : FrameBuf) :
    memWriteSeq a (xs ++ ys) m = memWriteSeq (a + xs.length) ys (memWriteSeq a xs m) := by
  induction xs generalizing a m with
  | nil => rfl
  | cons x xs ih =>
    simp only [List.cons_append, memWriteSeq, List.length_cons]
    rw [ih]
    congr 1
    omega

theorem memWriteSeq_wf (bs : List Byte) (a : Nat) {m : FrameBuf} (h : Memory.wf m) :
    Memory.wf (memWriteSeq a bs m) := by
  induction bs generalizing a m with
  | nil => exact h
  | cons x bs ih => exact ih _ (memWrite_wf a x h)

theorem memWriteSeq_below (bs : List Byte) {a n : Nat} {m : FrameBuf} (h : Memory.below m n)
    (hn : a + bs.length ≤ n) : Memory.below (memWriteSeq a bs m) n := by
  induction bs generalizing a m with
  | nil => exact h
  | cons x bs ih =>
    simp only [List.length_cons] at hn
    exact ih (memWrite_below x h (by omega)) (by omega)

end Sys2Proof.Machine
end

