-- ==== Sys2Proof/Laws/Loop.lean ====
section
/-! SUPPORT. The counted loops of the core (spec/43_composite_system.md R59). -/

namespace Sys2Proof.Machine

variable {σ α : Type}

@[simp] theorem forUp_zero (f : Nat → σ → σ) (s : σ) : forUp 0 f s = s := rfl

theorem forUp_succ (n : Nat) (f : Nat → σ → σ) (s : σ) : forUp (n + 1) f s = f n (forUp n f s) := rfl

/-- What holds before a loop and is kept by each of its bodies holds after it. -/
theorem forUp_keeps {P : σ → Prop} {n : Nat} {f : Nat → σ → σ} {s : σ} (h0 : P s)
    (hstep : ∀ i < n, ∀ t, P t → P (f i t)) : P (forUp n f s) := by
  induction n with
  | zero => exact h0
  | succ n ih => exact hstep n (by omega) _ (ih fun i hi => hstep i (by omega))

@[simp] theorem repeatOp_zero (f : σ → σ) (s : σ) : repeatOp f 0 s = s := rfl

theorem repeatOp_succ (f : σ → σ) (n : Nat) (s : σ) : repeatOp f (n + 1) s = repeatOp f n (f s) := rfl

theorem repeatOp_add (f : σ → σ) (m n : Nat) (s : σ) : repeatOp f (m + n) s = repeatOp f n (repeatOp f m s) := by
  induction m generalizing s with
  | zero => simp
  | succ m ih => rw [Nat.succ_add, repeatOp_succ, repeatOp_succ, ih]

theorem repeatOp_succ' (f : σ → σ) (n : Nat) (s : σ) : repeatOp f (n + 1) s = f (repeatOp f n s) := by
  rw [repeatOp_add]
  rfl

theorem repeatOp_keeps {P : σ → Prop} {f : σ → σ} (hf : ∀ t, P t → P (f t)) (n : Nat) {s : σ} (h : P s) :
    P (repeatOp f n s) := by
  induction n generalizing s with
  | zero => exact h
  | succ n ih => exact ih (hf s h)

/-- Reads after a loop that writes key `i` in its body `i`. -/
theorem memRead_forUp_memWrite (v : Nat → α) (n : Nat) (m : List (Nat × α)) (a : Nat) :
    memRead (forUp n (fun i m => memWrite m i (v i)) m) a = if a < n then some (v a) else memRead m a := by
  induction n with
  | zero => simp
  | succ n ih =>
    rw [forUp_succ, memRead_memWrite, ih]
    by_cases h : a = n
    · simp [h]
    · by_cases h' : a < n
      · simp [h, h', Nat.lt_succ_of_lt h']
      · simp [h, h', show ¬ a < n + 1 by omega]

theorem forUp_memWrite_wf (v : Nat → α) (n : Nat) {m : List (Nat × α)} (h : Memory.wf m) :
    Memory.wf (forUp n (fun i m => memWrite m i (v i)) m) :=
  forUp_keeps h fun i _ _ ht => memWrite_wf i (v i) ht

theorem forUp_memWrite_below (v : Nat → α) {n k : Nat} (hnk : n ≤ k) {m : List (Nat × α)} (h : Memory.below m k) :
    Memory.below (forUp n (fun i m => memWrite m i (v i)) m) k :=
  forUp_keeps (P := fun m => Memory.below m k) h fun i hi _ ht => memWrite_below (v i) ht (by omega)

end Sys2Proof.Machine
end

