-- ==== Sys2Proof/Laws/Packer.lean ====
section
/-! SUPPORT. Everything the Frame Packer's and the Color Map Generator's shared operations do to the two memories. -/

namespace Sys2Proof.Machine

theorem memRead_forUp_patterns {c : Config} (hc : c.CoreOK) (off : Nat) (color : Word) (m : FrameBuf) (a n : Nat) :
    memRead (forUp n (fun k => memWriteSeq (off + c.patBytes * k) (symbolEncoder c (pairIndex color k))) m) a =
      if off ≤ a ∧ a < off + c.patBytes * n then
        (symbolEncoder c (pairIndex color ((a - off) / c.patBytes)))[(a - off) % c.patBytes]?
      else memRead m a := by
  have hp := patBytes_pos hc
  induction n with
  | zero => simp
  | succ n ih =>
    have hmul : c.patBytes * (n + 1) = c.patBytes * n + c.patBytes := by ring
    rw [forUp_succ, memRead_memWriteSeq, symbolEncoder_length hc, ih]
    by_cases h : off + c.patBytes * n ≤ a ∧ a < off + c.patBytes * n + c.patBytes
    · have hx : a - off = (a - (off + c.patBytes * n)) + c.patBytes * n := by omega
      have hlt : a - (off + c.patBytes * n) < c.patBytes := by omega
      rw [if_pos h, if_pos (by omega), hx, Nat.add_mul_div_left _ _ hp, Nat.add_mul_mod_self_left,
        Nat.div_eq_of_lt hlt, Nat.mod_eq_of_lt hlt, Nat.zero_add]
    · rw [if_neg h]
      by_cases h' : off ≤ a ∧ a < off + c.patBytes * n
      · rw [if_pos h', if_pos (by omega)]
      · rw [if_neg h', if_neg (by omega)]

/-- Reads after one LED's patterns are written at `off` (spec/41_frame_packer.md R48). -/
theorem memRead_writePatterns {c : Config} (hc : c.CoreOK) (off : Nat) (color : Word) (m : FrameBuf) (a : Nat) :
    memRead (writePatterns c off color m) a =
      if off ≤ a ∧ a < off + c.bytesPerLed then (ledBytes c color)[a - off]? else memRead m a := by
  rw [writePatterns, memRead_forUp_patterns hc, Config.bytesPerLed, Nat.mul_comm 12]
  by_cases h : off ≤ a ∧ a < off + c.patBytes * 12
  · rw [if_pos h, if_pos h, ledBytes_getElem? hc, if_pos (by unfold Config.bytesPerLed; omega)]
  · rw [if_neg h, if_neg h]

theorem forUp_patterns_eq {c : Config} (hc : c.CoreOK) (off : Nat) (color : Word) (m : FrameBuf) (n : Nat) :
    forUp n (fun k => memWriteSeq (off + c.patBytes * k) (symbolEncoder c (pairIndex color k))) m =
    memWriteSeq off ((List.range n).flatMap fun k => symbolEncoder c (pairIndex color k)) m := by
  induction n with
  | zero => rfl
  | succ n ih =>
    rw [forUp_succ, ih, List.range_succ, List.flatMap_append, memWriteSeq_append]
    simp only [List.flatMap_cons, List.flatMap_nil, List.append_nil]
    congr 1
    rw [List.length_flatMap, List.map_congr_left (g := fun _ => c.patBytes) fun k _ => symbolEncoder_length hc _]
    simp
    ring

/-- The twelve pattern writes are the writes of the LED's bytes in ascending order (spec/41_frame_packer.md R48). -/
theorem writePatterns_eq {c : Config} (hc : c.CoreOK) (off : Nat) (color : Word) (m : FrameBuf) :
    writePatterns c off color m = memWriteSeq off (ledBytes c color) m :=
  forUp_patterns_eq hc off color m 12

theorem writePatterns_wf (c : Config) (off : Nat) (color : Word) {m : FrameBuf} (h : Memory.wf m) :
    Memory.wf (writePatterns c off color m) :=
  forUp_keeps h fun _ _ _ ht => memWriteSeq_wf _ _ ht

theorem writePatterns_below {c : Config} (hc : c.CoreOK) {off n : Nat} (color : Word) {m : FrameBuf}
    (h : Memory.below m n) (hn : off + c.bytesPerLed ≤ n) : Memory.below (writePatterns c off color m) n := by
  refine forUp_keeps (P := fun m => Memory.below m n) h fun k hk _ ht => memWriteSeq_below _ ht ?_
  rw [symbolEncoder_length hc]
  have : c.patBytes * (k + 1) ≤ c.patBytes * 12 := Nat.mul_le_mul_left _ hk
  unfold Config.bytesPerLed at hn
  nlinarith

theorem ledBase_succ (c : Config) (j : Nat) : c.ledBase (j + 1) = c.ledBase j + c.bytesPerLed := by
  unfold Config.ledBase
  ring

theorem ledBase_N (c : Config) : c.ledBase c.N = c.fbBytes := rfl

theorem ledBase_mono (c : Config) {i j : Nat} (h : i ≤ j) : c.ledBase i ≤ c.ledBase j :=
  Nat.add_le_add_left (Nat.mul_le_mul_left _ h) _

/-- Every LED slot lies in the buffer, so PACKFRM's bounds test never fires (spec/41_frame_packer.md R49). -/
theorem ledBase_fits (c : Config) {j : Nat} (h : j < c.N) : c.ledBase j + c.bytesPerLed ≤ c.fbBytes := by
  rw [← ledBase_succ, ← ledBase_N]
  exact ledBase_mono c h

/-- The LED slots written so far, by address. -/
theorem memRead_forUp_leds {c : Config} (hc : c.CoreOK) (col : Nat → Word) (m : FrameBuf) (a n : Nat) :
    memRead (forUp n (fun j => writePatterns c (c.ledBase j) (col j)) m) a =
      if c.resetBytes ≤ a ∧ a < c.ledBase n then
        (ledBytes c (col ((a - c.resetBytes) / c.bytesPerLed)))[(a - c.resetBytes) % c.bytesPerLed]?
      else memRead m a := by
  have hb : 0 < c.bytesPerLed := by
    have := patBytes_pos hc
    unfold Config.bytesPerLed
    omega
  induction n with
  | zero => simp [Config.ledBase]
  | succ n ih =>
    rw [forUp_succ, memRead_writePatterns hc, ih, ledBase_succ]
    have hbase : c.resetBytes + c.bytesPerLed * n = c.ledBase n := rfl
    by_cases h : c.ledBase n ≤ a ∧ a < c.ledBase n + c.bytesPerLed
    · have hx : a - c.resetBytes = (a - c.ledBase n) + c.bytesPerLed * n := by omega
      have hlt : a - c.ledBase n < c.bytesPerLed := by omega
      rw [if_pos h, if_pos (by omega), hx, Nat.add_mul_div_left _ _ hb, Nat.add_mul_mod_self_left,
        Nat.div_eq_of_lt hlt, Nat.mod_eq_of_lt hlt, Nat.zero_add]
    · rw [if_neg h]
      by_cases h' : c.resetBytes ≤ a ∧ a < c.ledBase n
      · rw [if_pos h', if_pos (by omega)]
      · rw [if_neg h', if_neg (by omega)]

/-- The frame buffer after PACKFRM, by address (spec/41_frame_packer.md R49, spec/20_memory.md R29). -/
theorem memRead_packFrame {s : State} (hc : s.cfg.CoreOK) (a : Nat) :
    memRead (packFrame s).fb a =
      if a < s.cfg.resetBytes then some 0x00#8
      else if a < s.cfg.fbBytes then
        (ledBytes s.cfg (mapColor s ((a - s.cfg.resetBytes) / s.cfg.bytesPerLed)))[
          (a - s.cfg.resetBytes) % s.cfg.bytesPerLed]?
      else memRead s.fb a := by
  simp only [packFrame, packReset]
  rw [memRead_forUp_leds hc, memRead_forUp_memWrite, ledBase_N]
  by_cases h : a < s.cfg.resetBytes
  · simp [h, show ¬ s.cfg.resetBytes ≤ a by omega]
  · simp [h, show s.cfg.resetBytes ≤ a by omega]

/-- The color map after UPDMAP, by index (spec/42_color_map.md R52). -/
theorem memRead_updateMap (offset : Word) (s : State) (i : Nat) :
    memRead (updateMap offset s).cm i =
      if i < s.cfg.N then some (colorAt s.cfg.N offset.toNat i) else memRead s.cm i :=
  memRead_forUp_memWrite _ _ _ _

/-- The frame buffer after PACKRST, by address (spec/41_frame_packer.md R47). -/
theorem memRead_packReset (s : State) (a : Nat) :
    memRead (packReset s).fb a = if a < s.cfg.resetBytes then some 0x00#8 else memRead s.fb a :=
  memRead_forUp_memWrite _ _ _ _

theorem packFrame_wf {s : State} (h : Memory.wf s.fb) : Memory.wf (packFrame s).fb :=
  forUp_keeps (forUp_memWrite_wf _ _ h) fun _ _ _ ht => writePatterns_wf _ _ _ ht

theorem packFrame_below {s : State} (hc : s.cfg.CoreOK) (h : Memory.below s.fb s.cfg.fbBytes) :
    Memory.below (packFrame s).fb s.cfg.fbBytes :=
  forUp_keeps (P := fun m => Memory.below m s.cfg.fbBytes)
    (forUp_memWrite_below _ (by unfold Config.fbBytes; omega) h)
    fun _ hj _ ht => writePatterns_below hc _ ht (ledBase_fits _ hj)

end Sys2Proof.Machine
end

