-- ==== Sys2Proof/Laws/State.lean ====
section
/-! SUPPORT. One lemma for each field and each named update of State, so that no later proof unfolds a record update. -/

namespace Sys2Proof.Machine

variable (s : State)

/-! Acceptance changes STATUS only (spec/30_encoding.md R35). -/

@[simp] theorem accept_cfg : (accept s).cfg = s.cfg := rfl
@[simp] theorem accept_cm : (accept s).cm = s.cm := rfl
@[simp] theorem accept_fb : (accept s).fb = s.fb := rfl
@[simp] theorem accept_pat : (accept s).pat = s.pat := rfl
@[simp] theorem accept_status : (accept s).status = setBusy s.status := rfl
@[simp] theorem accept_seq : (accept s).seq = s.seq := rfl
@[simp] theorem accept_cmdDone : (accept s).cmdDone = s.cmdDone := rfl
@[simp] theorem accept_lastTs : (accept s).lastTs = s.lastTs := rfl
@[simp] theorem accept_frameCounter : (accept s).frameCounter = s.frameCounter := rfl
@[simp] theorem accept_hostPhase : (accept s).hostPhase = s.hostPhase := rfl
@[simp] theorem accept_offered : (accept s).offered = s.offered := rfl
@[simp] theorem accept_fbRdata : (accept s).fbRdata = s.fbRdata := rfl
@[simp] theorem accept_cmRdata : (accept s).cmRdata = s.cmRdata := rfl
@[simp] theorem accept_patOut : (accept s).patOut = s.patOut := rfl
@[simp] theorem accept_busConfig : (accept s).busConfig = s.busConfig := rfl
@[simp] theorem accept_busPin : (accept s).busPin = s.busPin := rfl
@[simp] theorem accept_xfer : (accept s).xfer = s.xfer := rfl
@[simp] theorem accept_wire : (accept s).wire = s.wire := rfl
@[simp] theorem accept_patWritten : (accept s).patWritten = s.patWritten := rfl
@[simp] theorem accept_draws : (accept s).draws = s.draws := rfl
@[simp] theorem accept_inputs : (accept s).inputs = s.inputs := rfl

/-! Completion changes STATUS and the pulse only (spec/30_encoding.md R35). -/

@[simp] theorem complete_cfg : (complete s).cfg = s.cfg := rfl
@[simp] theorem complete_cm : (complete s).cm = s.cm := rfl
@[simp] theorem complete_fb : (complete s).fb = s.fb := rfl
@[simp] theorem complete_pat : (complete s).pat = s.pat := rfl
@[simp] theorem complete_status : (complete s).status = clearBusy s.status := rfl
@[simp] theorem complete_seq : (complete s).seq = s.seq := rfl
@[simp] theorem complete_cmdDone : (complete s).cmdDone = true := rfl
@[simp] theorem complete_lastTs : (complete s).lastTs = s.lastTs := rfl
@[simp] theorem complete_frameCounter : (complete s).frameCounter = s.frameCounter := rfl
@[simp] theorem complete_hostPhase : (complete s).hostPhase = s.hostPhase := rfl
@[simp] theorem complete_offered : (complete s).offered = s.offered := rfl
@[simp] theorem complete_fbRdata : (complete s).fbRdata = s.fbRdata := rfl
@[simp] theorem complete_cmRdata : (complete s).cmRdata = s.cmRdata := rfl
@[simp] theorem complete_patOut : (complete s).patOut = s.patOut := rfl
@[simp] theorem complete_busConfig : (complete s).busConfig = s.busConfig := rfl
@[simp] theorem complete_busPin : (complete s).busPin = s.busPin := rfl
@[simp] theorem complete_xfer : (complete s).xfer = s.xfer := rfl
@[simp] theorem complete_wire : (complete s).wire = s.wire := rfl
@[simp] theorem complete_patWritten : (complete s).patWritten = s.patWritten := rfl
@[simp] theorem complete_draws : (complete s).draws = s.draws := rfl
@[simp] theorem complete_inputs : (complete s).inputs = s.inputs := rfl

/-! Taking an error changes STATUS only (spec/60_exceptions.md R67). -/

@[simp] theorem raiseError_cfg (e : CoreError) : (raiseError e s).cfg = s.cfg := rfl
@[simp] theorem raiseError_cm (e : CoreError) : (raiseError e s).cm = s.cm := rfl
@[simp] theorem raiseError_fb (e : CoreError) : (raiseError e s).fb = s.fb := rfl
@[simp] theorem raiseError_pat (e : CoreError) : (raiseError e s).pat = s.pat := rfl
@[simp] theorem raiseError_status (e : CoreError) : (raiseError e s).status = setError e s.status := rfl
@[simp] theorem raiseError_seq (e : CoreError) : (raiseError e s).seq = s.seq := rfl
@[simp] theorem raiseError_cmdDone (e : CoreError) : (raiseError e s).cmdDone = s.cmdDone := rfl
@[simp] theorem raiseError_lastTs (e : CoreError) : (raiseError e s).lastTs = s.lastTs := rfl
@[simp] theorem raiseError_frameCounter (e : CoreError) : (raiseError e s).frameCounter = s.frameCounter := rfl
@[simp] theorem raiseError_hostPhase (e : CoreError) : (raiseError e s).hostPhase = s.hostPhase := rfl
@[simp] theorem raiseError_offered (e : CoreError) : (raiseError e s).offered = s.offered := rfl
@[simp] theorem raiseError_fbRdata (e : CoreError) : (raiseError e s).fbRdata = s.fbRdata := rfl
@[simp] theorem raiseError_cmRdata (e : CoreError) : (raiseError e s).cmRdata = s.cmRdata := rfl
@[simp] theorem raiseError_patOut (e : CoreError) : (raiseError e s).patOut = s.patOut := rfl
@[simp] theorem raiseError_busConfig (e : CoreError) : (raiseError e s).busConfig = s.busConfig := rfl
@[simp] theorem raiseError_busPin (e : CoreError) : (raiseError e s).busPin = s.busPin := rfl
@[simp] theorem raiseError_xfer (e : CoreError) : (raiseError e s).xfer = s.xfer := rfl
@[simp] theorem raiseError_wire (e : CoreError) : (raiseError e s).wire = s.wire := rfl
@[simp] theorem raiseError_patWritten (e : CoreError) : (raiseError e s).patWritten = s.patWritten := rfl
@[simp] theorem raiseError_draws (e : CoreError) : (raiseError e s).draws = s.draws := rfl
@[simp] theorem raiseError_inputs (e : CoreError) : (raiseError e s).inputs = s.inputs := rfl

/-! A color-map write (spec/20_memory.md R28). -/

@[simp] theorem writeCm_cfg (i : Nat) (v : Word) : (writeCm i v s).cfg = s.cfg := rfl
@[simp] theorem writeCm_cm (i : Nat) (v : Word) : (writeCm i v s).cm = memWrite s.cm i v := rfl
@[simp] theorem writeCm_fb (i : Nat) (v : Word) : (writeCm i v s).fb = s.fb := rfl
@[simp] theorem writeCm_pat (i : Nat) (v : Word) : (writeCm i v s).pat = s.pat := rfl
@[simp] theorem writeCm_status (i : Nat) (v : Word) : (writeCm i v s).status = s.status := rfl
@[simp] theorem writeCm_seq (i : Nat) (v : Word) : (writeCm i v s).seq = s.seq := rfl
@[simp] theorem writeCm_cmdDone (i : Nat) (v : Word) : (writeCm i v s).cmdDone = s.cmdDone := rfl
@[simp] theorem writeCm_lastTs (i : Nat) (v : Word) : (writeCm i v s).lastTs = s.lastTs := rfl
@[simp] theorem writeCm_frameCounter (i : Nat) (v : Word) : (writeCm i v s).frameCounter = s.frameCounter := rfl
@[simp] theorem writeCm_hostPhase (i : Nat) (v : Word) : (writeCm i v s).hostPhase = s.hostPhase := rfl
@[simp] theorem writeCm_offered (i : Nat) (v : Word) : (writeCm i v s).offered = s.offered := rfl
@[simp] theorem writeCm_fbRdata (i : Nat) (v : Word) : (writeCm i v s).fbRdata = s.fbRdata := rfl
@[simp] theorem writeCm_cmRdata (i : Nat) (v : Word) : (writeCm i v s).cmRdata = s.cmRdata := rfl
@[simp] theorem writeCm_patOut (i : Nat) (v : Word) : (writeCm i v s).patOut = s.patOut := rfl
@[simp] theorem writeCm_busConfig (i : Nat) (v : Word) : (writeCm i v s).busConfig = s.busConfig := rfl
@[simp] theorem writeCm_busPin (i : Nat) (v : Word) : (writeCm i v s).busPin = s.busPin := rfl
@[simp] theorem writeCm_xfer (i : Nat) (v : Word) : (writeCm i v s).xfer = s.xfer := rfl
@[simp] theorem writeCm_wire (i : Nat) (v : Word) : (writeCm i v s).wire = s.wire := rfl
@[simp] theorem writeCm_patWritten (i : Nat) (v : Word) : (writeCm i v s).patWritten = s.patWritten := rfl
@[simp] theorem writeCm_draws (i : Nat) (v : Word) : (writeCm i v s).draws = s.draws := rfl
@[simp] theorem writeCm_inputs (i : Nat) (v : Word) : (writeCm i v s).inputs = s.inputs := rfl

/-! A frame-buffer write (spec/20_memory.md R28). -/

@[simp] theorem writeFb_cfg (a : Nat) (b : Byte) : (writeFb a b s).cfg = s.cfg := rfl
@[simp] theorem writeFb_cm (a : Nat) (b : Byte) : (writeFb a b s).cm = s.cm := rfl
@[simp] theorem writeFb_fb (a : Nat) (b : Byte) : (writeFb a b s).fb = memWrite s.fb a b := rfl
@[simp] theorem writeFb_pat (a : Nat) (b : Byte) : (writeFb a b s).pat = s.pat := rfl
@[simp] theorem writeFb_status (a : Nat) (b : Byte) : (writeFb a b s).status = s.status := rfl
@[simp] theorem writeFb_seq (a : Nat) (b : Byte) : (writeFb a b s).seq = s.seq := rfl
@[simp] theorem writeFb_cmdDone (a : Nat) (b : Byte) : (writeFb a b s).cmdDone = s.cmdDone := rfl
@[simp] theorem writeFb_lastTs (a : Nat) (b : Byte) : (writeFb a b s).lastTs = s.lastTs := rfl
@[simp] theorem writeFb_frameCounter (a : Nat) (b : Byte) : (writeFb a b s).frameCounter = s.frameCounter := rfl
@[simp] theorem writeFb_hostPhase (a : Nat) (b : Byte) : (writeFb a b s).hostPhase = s.hostPhase := rfl
@[simp] theorem writeFb_offered (a : Nat) (b : Byte) : (writeFb a b s).offered = s.offered := rfl
@[simp] theorem writeFb_fbRdata (a : Nat) (b : Byte) : (writeFb a b s).fbRdata = s.fbRdata := rfl
@[simp] theorem writeFb_cmRdata (a : Nat) (b : Byte) : (writeFb a b s).cmRdata = s.cmRdata := rfl
@[simp] theorem writeFb_patOut (a : Nat) (b : Byte) : (writeFb a b s).patOut = s.patOut := rfl
@[simp] theorem writeFb_busConfig (a : Nat) (b : Byte) : (writeFb a b s).busConfig = s.busConfig := rfl
@[simp] theorem writeFb_busPin (a : Nat) (b : Byte) : (writeFb a b s).busPin = s.busPin := rfl
@[simp] theorem writeFb_xfer (a : Nat) (b : Byte) : (writeFb a b s).xfer = s.xfer := rfl
@[simp] theorem writeFb_wire (a : Nat) (b : Byte) : (writeFb a b s).wire = s.wire := rfl
@[simp] theorem writeFb_patWritten (a : Nat) (b : Byte) : (writeFb a b s).patWritten = s.patWritten := rfl
@[simp] theorem writeFb_draws (a : Nat) (b : Byte) : (writeFb a b s).draws = s.draws := rfl
@[simp] theorem writeFb_inputs (a : Nat) (b : Byte) : (writeFb a b s).inputs = s.inputs := rfl

/-! A write of PAT (spec/40_symbol_encoder.md R45). -/

@[simp] theorem writePat_cfg (p : List Byte) : (writePat p s).cfg = s.cfg := rfl
@[simp] theorem writePat_cm (p : List Byte) : (writePat p s).cm = s.cm := rfl
@[simp] theorem writePat_fb (p : List Byte) : (writePat p s).fb = s.fb := rfl
@[simp] theorem writePat_pat (p : List Byte) : (writePat p s).pat = p := rfl
@[simp] theorem writePat_status (p : List Byte) : (writePat p s).status = s.status := rfl
@[simp] theorem writePat_seq (p : List Byte) : (writePat p s).seq = s.seq := rfl
@[simp] theorem writePat_cmdDone (p : List Byte) : (writePat p s).cmdDone = s.cmdDone := rfl
@[simp] theorem writePat_lastTs (p : List Byte) : (writePat p s).lastTs = s.lastTs := rfl
@[simp] theorem writePat_frameCounter (p : List Byte) : (writePat p s).frameCounter = s.frameCounter := rfl
@[simp] theorem writePat_hostPhase (p : List Byte) : (writePat p s).hostPhase = s.hostPhase := rfl
@[simp] theorem writePat_offered (p : List Byte) : (writePat p s).offered = s.offered := rfl
@[simp] theorem writePat_fbRdata (p : List Byte) : (writePat p s).fbRdata = s.fbRdata := rfl
@[simp] theorem writePat_cmRdata (p : List Byte) : (writePat p s).cmRdata = s.cmRdata := rfl
@[simp] theorem writePat_patOut (p : List Byte) : (writePat p s).patOut = s.patOut := rfl
@[simp] theorem writePat_busConfig (p : List Byte) : (writePat p s).busConfig = s.busConfig := rfl
@[simp] theorem writePat_busPin (p : List Byte) : (writePat p s).busPin = s.busPin := rfl
@[simp] theorem writePat_xfer (p : List Byte) : (writePat p s).xfer = s.xfer := rfl
@[simp] theorem writePat_wire (p : List Byte) : (writePat p s).wire = s.wire := rfl
@[simp] theorem writePat_patWritten (p : List Byte) : (writePat p s).patWritten = true := rfl
@[simp] theorem writePat_draws (p : List Byte) : (writePat p s).draws = s.draws := rfl
@[simp] theorem writePat_inputs (p : List Byte) : (writePat p s).inputs = s.inputs := rfl

/-! Drawing free values (spec/10_state.md R24). -/

@[simp] theorem useDraws_cfg (n : Nat) : (useDraws n s).cfg = s.cfg := rfl
@[simp] theorem useDraws_cm (n : Nat) : (useDraws n s).cm = s.cm := rfl
@[simp] theorem useDraws_fb (n : Nat) : (useDraws n s).fb = s.fb := rfl
@[simp] theorem useDraws_pat (n : Nat) : (useDraws n s).pat = s.pat := rfl
@[simp] theorem useDraws_status (n : Nat) : (useDraws n s).status = s.status := rfl
@[simp] theorem useDraws_seq (n : Nat) : (useDraws n s).seq = s.seq := rfl
@[simp] theorem useDraws_cmdDone (n : Nat) : (useDraws n s).cmdDone = s.cmdDone := rfl
@[simp] theorem useDraws_lastTs (n : Nat) : (useDraws n s).lastTs = s.lastTs := rfl
@[simp] theorem useDraws_frameCounter (n : Nat) : (useDraws n s).frameCounter = s.frameCounter := rfl
@[simp] theorem useDraws_hostPhase (n : Nat) : (useDraws n s).hostPhase = s.hostPhase := rfl
@[simp] theorem useDraws_offered (n : Nat) : (useDraws n s).offered = s.offered := rfl
@[simp] theorem useDraws_fbRdata (n : Nat) : (useDraws n s).fbRdata = s.fbRdata := rfl
@[simp] theorem useDraws_cmRdata (n : Nat) : (useDraws n s).cmRdata = s.cmRdata := rfl
@[simp] theorem useDraws_patOut (n : Nat) : (useDraws n s).patOut = s.patOut := rfl
@[simp] theorem useDraws_busConfig (n : Nat) : (useDraws n s).busConfig = s.busConfig := rfl
@[simp] theorem useDraws_busPin (n : Nat) : (useDraws n s).busPin = s.busPin := rfl
@[simp] theorem useDraws_xfer (n : Nat) : (useDraws n s).xfer = s.xfer := rfl
@[simp] theorem useDraws_wire (n : Nat) : (useDraws n s).wire = s.wire := rfl
@[simp] theorem useDraws_patWritten (n : Nat) : (useDraws n s).patWritten = s.patWritten := rfl
@[simp] theorem useDraws_draws (n : Nat) : (useDraws n s).draws = s.draws + n := rfl
@[simp] theorem useDraws_inputs (n : Nat) : (useDraws n s).inputs = s.inputs := rfl

/-! Taking an event (spec/30_encoding.md R35). -/

@[simp] theorem takeEvent_cfg (rest : List Event) : (takeEvent rest s).cfg = s.cfg := rfl
@[simp] theorem takeEvent_cm (rest : List Event) : (takeEvent rest s).cm = s.cm := rfl
@[simp] theorem takeEvent_fb (rest : List Event) : (takeEvent rest s).fb = s.fb := rfl
@[simp] theorem takeEvent_pat (rest : List Event) : (takeEvent rest s).pat = s.pat := rfl
@[simp] theorem takeEvent_status (rest : List Event) : (takeEvent rest s).status = s.status := rfl
@[simp] theorem takeEvent_seq (rest : List Event) : (takeEvent rest s).seq = s.seq := rfl
@[simp] theorem takeEvent_cmdDone (rest : List Event) : (takeEvent rest s).cmdDone = false := rfl
@[simp] theorem takeEvent_lastTs (rest : List Event) : (takeEvent rest s).lastTs = s.lastTs := rfl
@[simp] theorem takeEvent_frameCounter (rest : List Event) : (takeEvent rest s).frameCounter = s.frameCounter := rfl
@[simp] theorem takeEvent_hostPhase (rest : List Event) : (takeEvent rest s).hostPhase = s.hostPhase := rfl
@[simp] theorem takeEvent_offered (rest : List Event) : (takeEvent rest s).offered = s.offered := rfl
@[simp] theorem takeEvent_fbRdata (rest : List Event) : (takeEvent rest s).fbRdata = s.fbRdata := rfl
@[simp] theorem takeEvent_cmRdata (rest : List Event) : (takeEvent rest s).cmRdata = s.cmRdata := rfl
@[simp] theorem takeEvent_patOut (rest : List Event) : (takeEvent rest s).patOut = s.patOut := rfl
@[simp] theorem takeEvent_busConfig (rest : List Event) : (takeEvent rest s).busConfig = s.busConfig := rfl
@[simp] theorem takeEvent_busPin (rest : List Event) : (takeEvent rest s).busPin = s.busPin := rfl
@[simp] theorem takeEvent_xfer (rest : List Event) : (takeEvent rest s).xfer = s.xfer := rfl
@[simp] theorem takeEvent_wire (rest : List Event) : (takeEvent rest s).wire = s.wire := rfl
@[simp] theorem takeEvent_patWritten (rest : List Event) : (takeEvent rest s).patWritten = s.patWritten := rfl
@[simp] theorem takeEvent_draws (rest : List Event) : (takeEvent rest s).draws = s.draws := rfl
@[simp] theorem takeEvent_inputs (rest : List Event) : (takeEvent rest s).inputs = rest := rfl

/-! The end of an operation in progress (spec/30_encoding.md R35). -/

@[simp] theorem finishSequencer_cfg : (finishSequencer s).cfg = s.cfg := rfl
@[simp] theorem finishSequencer_cm : (finishSequencer s).cm = s.cm := rfl
@[simp] theorem finishSequencer_fb : (finishSequencer s).fb = s.fb := rfl
@[simp] theorem finishSequencer_pat : (finishSequencer s).pat = s.pat := rfl
@[simp] theorem finishSequencer_status : (finishSequencer s).status = clearBusy s.status := rfl
@[simp] theorem finishSequencer_seq : (finishSequencer s).seq = none := rfl
@[simp] theorem finishSequencer_cmdDone : (finishSequencer s).cmdDone = true := rfl
@[simp] theorem finishSequencer_lastTs : (finishSequencer s).lastTs = s.lastTs := rfl
@[simp] theorem finishSequencer_frameCounter : (finishSequencer s).frameCounter = s.frameCounter := rfl
@[simp] theorem finishSequencer_hostPhase : (finishSequencer s).hostPhase = s.hostPhase := rfl
@[simp] theorem finishSequencer_offered : (finishSequencer s).offered = s.offered := rfl
@[simp] theorem finishSequencer_fbRdata : (finishSequencer s).fbRdata = s.fbRdata := rfl
@[simp] theorem finishSequencer_cmRdata : (finishSequencer s).cmRdata = s.cmRdata := rfl
@[simp] theorem finishSequencer_patOut : (finishSequencer s).patOut = s.patOut := rfl
@[simp] theorem finishSequencer_busConfig : (finishSequencer s).busConfig = s.busConfig := rfl
@[simp] theorem finishSequencer_busPin : (finishSequencer s).busPin = s.busPin := rfl
@[simp] theorem finishSequencer_xfer : (finishSequencer s).xfer = s.xfer := rfl
@[simp] theorem finishSequencer_wire : (finishSequencer s).wire = s.wire := rfl
@[simp] theorem finishSequencer_patWritten : (finishSequencer s).patWritten = s.patWritten := rfl
@[simp] theorem finishSequencer_draws : (finishSequencer s).draws = s.draws := rfl
@[simp] theorem finishSequencer_inputs : (finishSequencer s).inputs = s.inputs := rfl

/-! The command port (spec/70_reset_and_hazards.md R90). -/

@[simp] theorem holdPort_cfg (o : Option CmdWord) : (holdPort o s).cfg = s.cfg := rfl
@[simp] theorem holdPort_cm (o : Option CmdWord) : (holdPort o s).cm = s.cm := rfl
@[simp] theorem holdPort_fb (o : Option CmdWord) : (holdPort o s).fb = s.fb := rfl
@[simp] theorem holdPort_pat (o : Option CmdWord) : (holdPort o s).pat = s.pat := rfl
@[simp] theorem holdPort_status (o : Option CmdWord) : (holdPort o s).status = s.status := rfl
@[simp] theorem holdPort_seq (o : Option CmdWord) : (holdPort o s).seq = s.seq := rfl
@[simp] theorem holdPort_cmdDone (o : Option CmdWord) : (holdPort o s).cmdDone = s.cmdDone := rfl
@[simp] theorem holdPort_lastTs (o : Option CmdWord) : (holdPort o s).lastTs = s.lastTs := rfl
@[simp] theorem holdPort_frameCounter (o : Option CmdWord) : (holdPort o s).frameCounter = s.frameCounter := rfl
@[simp] theorem holdPort_hostPhase (o : Option CmdWord) : (holdPort o s).hostPhase = s.hostPhase := rfl
@[simp] theorem holdPort_offered (o : Option CmdWord) : (holdPort o s).offered = o := rfl
@[simp] theorem holdPort_fbRdata (o : Option CmdWord) : (holdPort o s).fbRdata = s.fbRdata := rfl
@[simp] theorem holdPort_cmRdata (o : Option CmdWord) : (holdPort o s).cmRdata = s.cmRdata := rfl
@[simp] theorem holdPort_patOut (o : Option CmdWord) : (holdPort o s).patOut = s.patOut := rfl
@[simp] theorem holdPort_busConfig (o : Option CmdWord) : (holdPort o s).busConfig = s.busConfig := rfl
@[simp] theorem holdPort_busPin (o : Option CmdWord) : (holdPort o s).busPin = s.busPin := rfl
@[simp] theorem holdPort_xfer (o : Option CmdWord) : (holdPort o s).xfer = s.xfer := rfl
@[simp] theorem holdPort_wire (o : Option CmdWord) : (holdPort o s).wire = s.wire := rfl
@[simp] theorem holdPort_patWritten (o : Option CmdWord) : (holdPort o s).patWritten = s.patWritten := rfl
@[simp] theorem holdPort_draws (o : Option CmdWord) : (holdPort o s).draws = s.draws := rfl
@[simp] theorem holdPort_inputs (o : Option CmdWord) : (holdPort o s).inputs = s.inputs := rfl

end Sys2Proof.Machine
end

