-- ==== Sys2Proof/Laws/Status.lean ====
section
/-! SUPPORT. The bits of STATUS under the four things that happen to it (spec/10_state.md R16). -/

namespace Sys2Proof.Machine

@[simp] theorem clearBusy_setBusy (st : BitVec 3) : clearBusy (setBusy st) = clearBusy st := by
  revert st; decide

@[simp] theorem clearBusy_clearBusy (st : BitVec 3) : clearBusy (clearBusy st) = clearBusy st := by
  revert st; decide

@[simp] theorem busyBit_clearBusy (st : BitVec 3) : busyBit (clearBusy st) = false := by
  revert st; decide

@[simp] theorem busyBit_setBusy (st : BitVec 3) : busyBit (setBusy st) = true := by
  revert st; decide

@[simp] theorem errField_clearBusy (st : BitVec 3) : errField (clearBusy st) = errField st := by
  revert st; decide

@[simp] theorem errField_setBusy (st : BitVec 3) : errField (setBusy st) = errField st := by
  revert st; decide

theorem clearBusy_eq (st : BitVec 3) : clearBusy st = st &&& 0b110#3 := rfl

@[simp] theorem busyBit_setError (e : CoreError) (st : BitVec 3) : busyBit (setError e st) = busyBit st := by
  cases e <;> (simp only [setError]; revert st; decide)

theorem clearBusy_setError_bounds (off : Nat) (st : BitVec 3) :
    clearBusy (setError (.bounds off) (setBusy st)) = (st &&& 0b110#3) ||| 0b010#3 := by
  simp only [setError]; revert st; decide

theorem clearBusy_setError_reservedOp (op : BitVec 3) (st : BitVec 3) :
    clearBusy (setError (.reservedOp op) (setBusy st)) = (st &&& 0b110#3) ||| 0b100#3 := by
  simp only [setError]; revert st; decide

/-- Acceptance, completion and errors never clear an error bit (spec/60_exceptions.md R67). -/
theorem errBits_kept (st : BitVec 3) (e : CoreError) :
    (boundsBit (setBusy st) = boundsBit st ∧ rsvdBit (setBusy st) = rsvdBit st) ∧
    (boundsBit (clearBusy st) = boundsBit st ∧ rsvdBit (clearBusy st) = rsvdBit st) ∧
    ((boundsBit st = true → boundsBit (setError e st) = true) ∧
      (rsvdBit st = true → rsvdBit (setError e st) = true)) := by
  cases e <;> (simp only [setError]; revert st; decide)

end Sys2Proof.Machine
end

