-- ==== Sys2Proof/Laws/Exec.lean ====
section
/-! SUPPORT. The one form every operation has: accepted, carried out, completed (spec/00_scope.md R6,
spec/30_encoding.md R35). -/

namespace Sys2Proof.Machine

/-- What an operation does between acceptance and completion. -/
def effect : Instr → State → State
  | .nop => fun s => s
  | .enc sym => encodeSymbol sym
  | .packrst => packReset
  | .packclr off color => packColor off.toNat color
  | .updmap offset => updateMap offset
  | .packfrm => packFrame
  | .build offset => buildFrame offset
  | .reserved7 => raiseError (.reservedOp 7#3)

/-- `exec` is acceptance, the effect, completion, for every operation. -/
theorem exec_eq (i : Instr) (s : State) : exec i s = .next (complete (effect i (accept s))) := by
  cases i <;> rfl

theorem clearBusy_setError_setBusy (e : CoreError) (st : BitVec 3) :
    clearBusy (setError e (setBusy st)) = clearBusy (setError e st) := by
  cases e <;> (simp only [setError]; revert st; decide)

/-- At the boundary acceptance has left no trace: an operation is its effect, then completion. -/
theorem exec_effect (i : Instr) (s : State) : exec i s = .next (complete (effect i s)) := by
  rw [exec_eq]
  cases i with
  | packclr off color =>
    by_cases h : fitsBuffer s.cfg off.toNat = true
    · simp [effect, packColor, h, complete, packPatterns, accept]
    · simp [effect, packColor, h, complete, raiseError, accept, clearBusy_setError_setBusy]
  | reserved7 => simp [effect, complete, raiseError, accept, clearBusy_setError_setBusy]
  | nop => simp [effect, complete, accept]
  | enc sym => simp [effect, encodeSymbol, writePat, complete, accept]
  | packrst => simp [effect, packReset, complete, accept]
  | updmap offset => simp [effect, updateMap, complete, accept]
  | packfrm => simp [effect, packFrame, packReset, mapColor, complete, accept]
  | build offset => simp [effect, buildFrame, packFrame, packReset, mapColor, updateMap, complete, accept]

theorem complete_eq_completed {s : State} : complete s = completed s := rfl

theorem exec_next {i : Instr} {s t : State} (h : exec i s = .next t) : t = complete (effect i s) := by
  rw [exec_effect] at h
  exact (Host.Outcome.next.inj h).symm

theorem fitsBuffer_iff (c : Config) (off : Nat) : fitsBuffer c off = true ↔ off + c.bytesPerLed ≤ c.fbBytes := by
  simp [fitsBuffer]

/-- PACKCLR either writes its patterns or takes the error (spec/41_frame_packer.md R48, spec/60_exceptions.md R65). -/
theorem packColor_cases (off : Nat) (color : Word) (s : State) :
    (off + s.cfg.bytesPerLed ≤ s.cfg.fbBytes ∧ packColor off color s = packPatterns off color s) ∨
    (s.cfg.fbBytes < off + s.cfg.bytesPerLed ∧ packColor off color s = raiseError (.bounds off) s) := by
  unfold packColor
  by_cases h : off + s.cfg.bytesPerLed ≤ s.cfg.fbBytes
  · exact .inl ⟨h, if_pos ((fitsBuffer_iff _ _).mpr h)⟩
  · exact .inr ⟨by omega, if_neg (by simpa [fitsBuffer_iff] using h)⟩

/-- No effect touches the configuration, the sequencer, HOST or TRANSPORT. -/
theorem effect_outside (i : Instr) (s : State) :
    effect i s = { s with
      cm := (effect i s).cm, fb := (effect i s).fb, pat := (effect i s).pat, patWritten := (effect i s).patWritten
      status := (effect i s).status, draws := (effect i s).draws } := by
  cases i with
  | packclr off color =>
    simp only [effect]
    rcases packColor_cases off.toNat color s with ⟨-, h⟩ | ⟨-, h⟩ <;> rw [h] <;> rfl
  | _ => rfl

end Sys2Proof.Machine
end

