-- ==== Sys2Proof/Laws/Frames.lean ====
section
/-! SUPPORT. Which part of the state each agent can change, said once: the core's own steps leave HOST's and
TRANSPORT's state alone, the transport's steps leave the core's and HOST's alone. -/

namespace Sys2Proof.Machine

/-- Between `s` and `t` only the core's own state (and the model's draw counter) has changed. -/
structure OnlyCore (s t : State) : Prop where
  cfg : t.cfg = s.cfg
  lastTs : t.lastTs = s.lastTs
  frameCounter : t.frameCounter = s.frameCounter
  hostPhase : t.hostPhase = s.hostPhase
  offered : t.offered = s.offered
  fbRdata : t.fbRdata = s.fbRdata
  cmRdata : t.cmRdata = s.cmRdata
  patOut : t.patOut = s.patOut
  busConfig : t.busConfig = s.busConfig
  busPin : t.busPin = s.busPin
  xfer : t.xfer = s.xfer
  wire : t.wire = s.wire
  inputs : t.inputs = s.inputs

/-- Between `s` and `t` only the transfer, the wire and the model's draw counter have changed. -/
structure OnlyTransfer (s t : State) : Prop where
  cfg : t.cfg = s.cfg
  cm : t.cm = s.cm
  fb : t.fb = s.fb
  pat : t.pat = s.pat
  patWritten : t.patWritten = s.patWritten
  status : t.status = s.status
  seq : t.seq = s.seq
  cmdDone : t.cmdDone = s.cmdDone
  lastTs : t.lastTs = s.lastTs
  frameCounter : t.frameCounter = s.frameCounter
  hostPhase : t.hostPhase = s.hostPhase
  offered : t.offered = s.offered
  fbRdata : t.fbRdata = s.fbRdata
  cmRdata : t.cmRdata = s.cmRdata
  patOut : t.patOut = s.patOut
  busConfig : t.busConfig = s.busConfig
  busPin : t.busPin = s.busPin
  inputs : t.inputs = s.inputs

theorem OnlyCore.refl (s : State) : OnlyCore s s := by constructor <;> rfl

theorem OnlyCore.trans {s t u : State} (h : OnlyCore s t) (h' : OnlyCore t u) : OnlyCore s u := by
  constructor
  · rw [h'.cfg, h.cfg]
  · rw [h'.lastTs, h.lastTs]
  · rw [h'.frameCounter, h.frameCounter]
  · rw [h'.hostPhase, h.hostPhase]
  · rw [h'.offered, h.offered]
  · rw [h'.fbRdata, h.fbRdata]
  · rw [h'.cmRdata, h.cmRdata]
  · rw [h'.patOut, h.patOut]
  · rw [h'.busConfig, h.busConfig]
  · rw [h'.busPin, h.busPin]
  · rw [h'.xfer, h.xfer]
  · rw [h'.wire, h.wire]
  · rw [h'.inputs, h.inputs]

theorem OnlyTransfer.refl (s : State) : OnlyTransfer s s := by constructor <;> rfl

theorem OnlyTransfer.trans {s t u : State} (h : OnlyTransfer s t) (h' : OnlyTransfer t u) : OnlyTransfer s u := by
  constructor
  · rw [h'.cfg, h.cfg]
  · rw [h'.cm, h.cm]
  · rw [h'.fb, h.fb]
  · rw [h'.pat, h.pat]
  · rw [h'.patWritten, h.patWritten]
  · rw [h'.status, h.status]
  · rw [h'.seq, h.seq]
  · rw [h'.cmdDone, h.cmdDone]
  · rw [h'.lastTs, h.lastTs]
  · rw [h'.frameCounter, h.frameCounter]
  · rw [h'.hostPhase, h.hostPhase]
  · rw [h'.offered, h.offered]
  · rw [h'.fbRdata, h.fbRdata]
  · rw [h'.cmRdata, h.cmRdata]
  · rw [h'.patOut, h.patOut]
  · rw [h'.busConfig, h.busConfig]
  · rw [h'.busPin, h.busPin]
  · rw [h'.inputs, h.inputs]

theorem startLed_onlyCore (j : Nat) (s : State) : OnlyCore s (startLed j s) := by
  unfold startLed
  split <;> (constructor <;> rfl)

/-- A write of the sequencer, whatever its phase. -/
theorem microStep_onlyCore (s : State) : OnlyCore s (microStep s) := by
  unfold microStep
  split
  · exact .refl s
  · constructor <;> rfl
  · constructor <;> rfl
  · dsimp only
    split
    · constructor <;> rfl
    · split <;> (constructor <;> rfl)
  · dsimp only
    split
    · constructor <;> rfl
    · split
      · exact OnlyCore.trans (by constructor <;> rfl) (startLed_onlyCore 0 _)
      · constructor <;> rfl
  · dsimp only
    split <;> (constructor <;> rfl)
  · dsimp only
    split
    · constructor <;> rfl
    · exact OnlyCore.trans (by constructor <;> rfl) (startLed_onlyCore _ _)

theorem repeatOp_microStep_onlyCore (n : Nat) (s : State) : OnlyCore s (repeatOp microStep n s) :=
  repeatOp_keeps (P := OnlyCore s) (fun t h => h.trans (microStep_onlyCore t)) n (.refl s)

theorem startOperation_onlyCore (i : Instr) (s : State) : OnlyCore s (startOperation i s) := by
  cases i with
  | packclr off color =>
    simp only [startOperation]
    split <;> (constructor <;> rfl)
  | _ => constructor <;> rfl

theorem exec_onlyCore {i : Instr} {s t : State} (h : exec i s = .next t) : OnlyCore s t := by
  rw [exec_next h, effect_outside]
  constructor <;> rfl

theorem xferRead_onlyTransfer (s : State) : OnlyTransfer s (xferRead s) := by
  unfold xferRead
  split
  · exact .refl s
  · constructor <;> rfl

theorem repeatOp_xferRead_onlyTransfer (n : Nat) (s : State) : OnlyTransfer s (repeatOp xferRead n s) :=
  repeatOp_keeps (P := OnlyTransfer s) (fun t h => h.trans (xferRead_onlyTransfer t)) n (.refl s)

theorem beginTransfer_onlyTransfer (n : Nat) (s : State) : OnlyTransfer s (beginTransfer n s) := by
  unfold beginTransfer
  split
  · exact .refl s
  · constructor <;> rfl

/-- A submission changes the transfer, the wire and the draw counter, and `inputs` where HOST is held in the call. -/
theorem startTransfer_onlyTransfer (n : Nat) (s : State) :
    OnlyTransfer { s with inputs := (startTransfer n s).inputs } (startTransfer n s) := by
  have begin := beginTransfer_onlyTransfer n s
  have same : ∀ t : State, OnlyTransfer s t → OnlyTransfer { s with inputs := t.inputs } t := fun t h => by
    constructor <;> first | rfl | (cases h; assumption)
  unfold startTransfer
  split
  · split
    · exact same _ (begin.trans (repeatOp_xferRead_onlyTransfer _ _))
    · constructor <;> first | rfl | (cases begin; assumption)
  · exact same _ begin

/-- What goes on by itself is a write of the core or a read of the transport, or nothing. -/
theorem quiet_cases (s : State) :
    (∃ u, (u = s ∨ u = useDraws 1 s) ∧ s.seq.isSome = true ∧ quiet s = microStep u) ∨
    (∃ u, (u = s ∨ u = useDraws 1 s) ∧ s.xfer.isSome = true ∧ quiet s = xferRead u) ∨
    (s.seq.isSome = false ∧ s.xfer.isSome = false ∧ quiet s = s) := by
  cases hs : s.seq.isSome <;> cases hx : s.xfer.isSome
  · exact .inr (.inr ⟨rfl, rfl, by simp [quiet, hs, hx]⟩)
  · exact .inr (.inl ⟨s, .inl rfl, rfl, by simp [quiet, hs, hx]⟩)
  · exact .inl ⟨s, .inl rfl, rfl, by simp [quiet, hs, hx]⟩
  · cases ho : Config.transportFirst s.draws
    · exact .inl ⟨useDraws 1 s, .inr rfl, rfl, by simp [quiet, hs, hx, ho]⟩
    · exact .inr (.inl ⟨useDraws 1 s, .inr rfl, rfl, by simp [quiet, hs, hx, ho]⟩)

/-- With no transfer in flight only the core moves. -/
theorem quiet_noTransfer {s : State} (h : s.xfer = none) : quiet s = microStep s := by
  cases hs : s.seq <;> simp [quiet, microStep, h, hs]

/-- With the sequencer idle only the transport moves. -/
theorem quiet_idleCore {s : State} (h : s.seq = none) : quiet s = xferRead s := by
  cases hx : s.xfer <;> simp [quiet, xferRead, h, hx]

/-- With both at work one of the two moves, and nothing says which. -/
theorem quiet_race {s : State} (h : s.seq ≠ none) (h' : s.xfer ≠ none) :
    quiet s = microStep (useDraws 1 s) ∨ quiet s = xferRead (useDraws 1 s) := by
  rw [← Option.isSome_iff_ne_none] at h h'
  cases ho : Config.transportFirst s.draws <;> simp [quiet, h, h', ho]

theorem quiet_inputs (s : State) : (quiet s).inputs = s.inputs := by
  rcases quiet_cases s with ⟨u, hu, -, h⟩ | ⟨u, hu, -, h⟩ | ⟨-, -, h⟩ <;> rw [h]
  · rw [(microStep_onlyCore u).inputs]; rcases hu with rfl | rfl <;> rfl
  · rw [(xferRead_onlyTransfer u).inputs]; rcases hu with rfl | rfl <;> rfl

theorem quiet_cfg (s : State) : (quiet s).cfg = s.cfg := by
  rcases quiet_cases s with ⟨u, hu, -, h⟩ | ⟨u, hu, -, h⟩ | ⟨-, -, h⟩ <;> rw [h]
  · rw [(microStep_onlyCore u).cfg]; rcases hu with rfl | rfl <;> rfl
  · rw [(xferRead_onlyTransfer u).cfg]; rcases hu with rfl | rfl <;> rfl

/-- What HOST holds on the command port stays there. -/
theorem quiet_offered (s : State) : (quiet s).offered = s.offered := by
  rcases quiet_cases s with ⟨u, hu, -, h⟩ | ⟨u, hu, -, h⟩ | ⟨-, -, h⟩ <;> rw [h]
  · rw [(microStep_onlyCore u).offered]; rcases hu with rfl | rfl <;> rfl
  · rw [(xferRead_onlyTransfer u).offered]; rcases hu with rfl | rfl <;> rfl

end Sys2Proof.Machine
end

