-- ==== Sys2Proof/Laws/Engine.lean ====
section
/-! SUPPORT. The sequencer phase by phase: what stands in the state after each of its writes (spec/10_state.md R21),
and what each phase hands on at its end. -/

namespace Sys2Proof.Machine

/-- Phase `map` before its last write. -/
theorem mapPhase {s : State} (o : Word) (tp : Bool) (n : Nat) (hn : n < s.cfg.N) :
    repeatOp microStep n { s with seq := some (.map o 0 tp) } =
      { s with
        cm := forUp n (fun i m => memWrite m i (colorAt s.cfg.N o.toNat i)) s.cm
        seq := some (.map o n tp) } := by
  induction n with
  | zero => rfl
  | succ n ih =>
    rw [repeatOp_succ', ih (by omega)]
    simp [microStep, writeCm, hn, forUp_succ]

/-- Phase `map` with its last write. -/
theorem mapPhase_end {s : State} (o : Word) (tp : Bool) (h : 1 ≤ s.cfg.N) :
    repeatOp microStep s.cfg.N { s with seq := some (.map o 0 tp) } =
      if tp then { updateMap o s with seq := some (.reset 0 true) } else finishSequencer (updateMap o s) := by
  obtain ⟨n, hn⟩ : ∃ n, s.cfg.N = n + 1 := ⟨s.cfg.N - 1, by omega⟩
  conv_lhs => rw [hn]
  rw [repeatOp_succ', mapPhase o tp n (by omega)]
  cases tp <;> simp [microStep, writeCm, hn, updateMap, forUp_succ, finishSequencer, complete]

/-- Phase `reset` before its last write. -/
theorem resetPhase {s : State} (tc : Bool) (n : Nat) (hn : n < s.cfg.resetBytes) :
    repeatOp microStep n { s with seq := some (.reset 0 tc) } =
      { s with fb := forUp n (fun a m => memWrite m a 0#8) s.fb, seq := some (.reset n tc) } := by
  induction n with
  | zero => rfl
  | succ n ih =>
    rw [repeatOp_succ', ih (by omega)]
    simp [microStep, writeFb, hn, forUp_succ]

theorem startLed_seq (j : Nat) (s : State) (q : Option Sequencer) :
    startLed j { s with seq := q } = startLed j s := by
  unfold startLed
  split <;> rfl

/-- Phase `reset` with its last write. -/
theorem resetPhase_end {s : State} (tc : Bool) (h : 1 ≤ s.cfg.resetBytes) :
    repeatOp microStep s.cfg.resetBytes { s with seq := some (.reset 0 tc) } =
      if tc then startLed 0 (packReset s) else finishSequencer (packReset s) := by
  obtain ⟨n, hn⟩ : ∃ n, s.cfg.resetBytes = n + 1 := ⟨s.cfg.resetBytes - 1, by omega⟩
  conv_lhs => rw [hn]
  rw [repeatOp_succ', resetPhase tc n (by omega), ← startLed_seq 0 (packReset s) (some (.reset n tc))]
  cases tc <;> simp [microStep, writeFb, hn, packReset, forUp_succ, finishSequencer, complete]

/-- The byte the sequencer writes at `base + x` is byte `x` of the LED. -/
theorem ledBytes_slotByte {c : Config} (hc : c.CoreOK) (base : Nat) (color : Word) {x : Nat}
    (hx : x < c.bytesPerLed) :
    (ledBytes c color)[x]? = some (slotByte c base color (x / c.patBytes) (base + x)) := by
  rw [ledBytes_getElem? hc, if_pos hx, slotByte]
  have := Nat.div_add_mod x c.patBytes
  have e : base + x - (base + c.patBytes * (x / c.patBytes)) = x % c.patBytes := by omega
  rw [e, List.getD_eq_getElem?_getD, List.getElem?_eq_getElem]
  · rfl
  · rw [symbolEncoder_length hc]
    exact Nat.mod_lt _ (patBytes_pos hc)

/-- The counters after byte `x` of an LED. -/
theorem nextPair_eq {c : Config} (hc : c.CoreOK) (base x : Nat) (hx : x < c.bytesPerLed) :
    nextPair c base (x / c.patBytes) (base + x) =
      if x + 1 < c.bytesPerLed then some ((x + 1) / c.patBytes, base + (x + 1)) else none := by
  have hp := patBytes_pos hc
  have h0 := Nat.div_add_mod x c.patBytes
  have hm := Nat.mod_lt x hp
  have hk : x / c.patBytes < 12 := by
    rw [Nat.div_lt_iff_lt_mul hp]
    exact hx
  generalize x / c.patBytes = k at *
  generalize x % c.patBytes = t at *
  have e : c.patBytes * (k + 1) = c.patBytes * k + c.patBytes := by ring
  have eb : c.bytesPerLed = c.patBytes * 12 := by
    unfold Config.bytesPerLed
    ring
  unfold nextPair
  by_cases h1 : base + x + 1 < base + c.patBytes * (k + 1)
  · have le : c.patBytes * (k + 1) ≤ c.patBytes * 12 := Nat.mul_le_mul_left _ hk
    rw [if_pos h1, if_pos (by omega)]
    have := (slot_div_mod hp k (t := t + 1) (by omega)).1
    rw [show x + 1 = c.patBytes * k + (t + 1) by omega, this]
    simp only [← h0]
    rw [show base + (c.patBytes * k + t) + 1 = base + (c.patBytes * k + (t + 1)) by omega]
  · rw [if_neg h1]
    have hx1 : x + 1 = c.patBytes * (k + 1) := by omega
    have hd : (x + 1) / c.patBytes = k + 1 := by
      rw [hx1]
      exact Nat.mul_div_cancel_left _ hp
    rw [hd]
    by_cases h2 : k + 1 < 12
    · have : c.patBytes * (k + 2) ≤ c.patBytes * 12 := Nat.mul_le_mul_left _ h2
      have e2 : c.patBytes * (k + 2) = c.patBytes * (k + 1) + c.patBytes := by ring
      rw [if_pos h2, if_pos (by omega)]
      rfl
    · have : k = 11 := by omega
      subst this
      rw [if_neg (by omega), if_neg (by omega)]

/-- One byte more of an LED. -/
theorem memWriteSeq_take_succ {c : Config} (hc : c.CoreOK) (base : Nat) (color : Word) {x : Nat}
    (hx : x < c.bytesPerLed) (m : FrameBuf) :
    memWriteSeq base ((ledBytes c color).take (x + 1)) m =
      memWrite (memWriteSeq base ((ledBytes c color).take x) m) (base + x)
        (slotByte c base color (x / c.patBytes) (base + x)) := by
  rw [List.take_add_one, ledBytes_slotByte hc base color hx, memWriteSeq_append]
  have : ((ledBytes c color).take x).length = x := by
    rw [List.length_take, ledBytes_length hc]
    omega
  rw [this]
  rfl

theorem writePatterns_last {c : Config} (hc : c.CoreOK) {base : Nat} {color : Word} {n : Nat}
    (hn : c.bytesPerLed = n + 1) (m : FrameBuf) :
    writePatterns c base color m =
      memWrite (memWriteSeq base ((ledBytes c color).take n) m) (base + n)
        (slotByte c base color (n / c.patBytes) (base + n)) := by
  rw [← memWriteSeq_take_succ hc base color (by omega), writePatterns_eq hc, List.take_of_length_le]
  rw [ledBytes_length hc]
  omega

/-- PACKCLR's writes before its last write. -/
theorem packClrPhase {s : State} (hc : s.cfg.CoreOK) (base : Nat) (color : Word) (x : Nat)
    (hx : x < s.cfg.bytesPerLed) :
    repeatOp microStep x { s with seq := some (.packClr base color 0 base) } =
      { s with
        fb := memWriteSeq base ((ledBytes s.cfg color).take x) s.fb
        seq := some (.packClr base color (x / s.cfg.patBytes) (base + x)) } := by
  induction x with
  | zero => simp [memWriteSeq]
  | succ x ih =>
    rw [repeatOp_succ', ih (by omega)]
    simp only [microStep, nextPair_eq hc base x (by omega), if_pos hx,
      memWriteSeq_take_succ hc base color (show x < _ by omega), writeFb]

/-- PACKCLR with its last write. -/
theorem packClrPhase_end {s : State} (hc : s.cfg.CoreOK) (base : Nat) (color : Word) :
    repeatOp microStep s.cfg.bytesPerLed { s with seq := some (.packClr base color 0 base) } =
      finishSequencer (packPatterns base color s) := by
  have hb := bytesPerLed_pos hc
  obtain ⟨n, hn⟩ : ∃ n, s.cfg.bytesPerLed = n + 1 := ⟨s.cfg.bytesPerLed - 1, by omega⟩
  conv_lhs => rw [hn]
  rw [repeatOp_succ', packClrPhase hc base color n (by omega)]
  rw [packPatterns, writePatterns_last hc hn]
  simp only [microStep, nextPair_eq hc base n (by omega), if_neg (show ¬ n + 1 < s.cfg.bytesPerLed by omega),
    writeFb, finishSequencer, complete]

/-- The writes of one LED in phase `colour` before its last write. -/
theorem packLedPhase {s : State} (hc : s.cfg.CoreOK) (j : Nat) (color : Word) (x : Nat)
    (hx : x < s.cfg.bytesPerLed) :
    repeatOp microStep x { s with seq := some (.packLed j color 0 (s.cfg.ledBase j)) } =
      { s with
        fb := memWriteSeq (s.cfg.ledBase j) ((ledBytes s.cfg color).take x) s.fb
        seq := some (.packLed j color (x / s.cfg.patBytes) (s.cfg.ledBase j + x)) } := by
  induction x with
  | zero => simp [memWriteSeq]
  | succ x ih =>
    rw [repeatOp_succ', ih (by omega)]
    simp only [microStep, nextPair_eq hc _ x (by omega), if_pos hx,
      memWriteSeq_take_succ hc _ color (show x < _ by omega), writeFb]

/-- One LED in phase `colour` with its last write. -/
theorem packLedPhase_end {s : State} (hc : s.cfg.CoreOK) (j : Nat) (color : Word) :
    repeatOp microStep s.cfg.bytesPerLed { s with seq := some (.packLed j color 0 (s.cfg.ledBase j)) } =
      startLed (j + 1) (packPatterns (s.cfg.ledBase j) color s) := by
  have hb := bytesPerLed_pos hc
  obtain ⟨n, hn⟩ : ∃ n, s.cfg.bytesPerLed = n + 1 := ⟨s.cfg.bytesPerLed - 1, by omega⟩
  conv_lhs => rw [hn]
  rw [repeatOp_succ', packLedPhase hc j color n (by omega)]
  rw [packPatterns, writePatterns_last hc hn]
  simp only [microStep, nextPair_eq hc _ n (by omega), if_neg (show ¬ n + 1 < s.cfg.bytesPerLed by omega), writeFb]
  exact startLed_seq (j + 1)
    { s with
      fb := memWrite (memWriteSeq (s.cfg.ledBase j) ((ledBytes s.cfg color).take n) s.fb) (s.cfg.ledBase j + n)
        (slotByte s.cfg (s.cfg.ledBase j) color (n / s.cfg.patBytes) (s.cfg.ledBase j + n)) }
    (some (.packLed j color (n / s.cfg.patBytes) (s.cfg.ledBase j + n)))

/-- What phase `colour` has done after LED `j - 1`. -/
def ledsDone (j : Nat) (s : State) : State :=
  { s with fb := forUp j (fun j => writePatterns s.cfg (s.cfg.ledBase j) (mapColor s j)) s.fb, draws := s.draws + j }

/-- Phase `colour` over the first `j` LEDs. -/
theorem colourPhase {s : State} (hc : s.cfg.CoreOK) (j : Nat) (hj : j ≤ s.cfg.N) :
    repeatOp microStep (s.cfg.bytesPerLed * j) (startLed 0 s) = startLed j (ledsDone j s) := by
  induction j with
  | zero => rfl
  | succ j ih =>
    rw [show s.cfg.bytesPerLed * (j + 1) = s.cfg.bytesPerLed * j + s.cfg.bytesPerLed by ring, repeatOp_add,
      ih (by omega)]
    rw [startLed, if_pos (show j < (ledsDone j s).cfg.N from hj)]
    have := packLedPhase_end (s := useDraws 1 (ledsDone j s)) hc j (cmEntry (ledsDone j s).cm j (ledsDone j s).draws)
    rw [show (useDraws 1 (ledsDone j s)).cfg = s.cfg from rfl] at this
    rw [show (ledsDone j s).cfg = s.cfg from rfl]
    refine this.trans ?_
    congr 1

/-- Phases `reset` and `colour` together are PACKFRM's effect (spec/41_frame_packer.md R49). -/
theorem framePhases {s : State} (hc : s.cfg.CoreOK) :
    repeatOp microStep s.cfg.fbBytes { s with seq := some (.reset 0 true) } = finishSequencer (packFrame s) := by
  unfold Config.fbBytes
  rw [repeatOp_add, resetPhase_end true hc.2.2.2.2.1, if_pos rfl]
  have := colourPhase (s := packReset s) hc s.cfg.N (le_refl _)
  rw [show (packReset s).cfg = s.cfg from rfl] at this
  rw [this, startLed, if_neg (show ¬ s.cfg.N < (ledsDone s.cfg.N (packReset s)).cfg.N from lt_irrefl _)]
  rfl

/-- They leave STATUS alone and the sequencer at work before their last write (spec/10_state.md R16). -/
theorem framePhases_busy {s : State} (hc : s.cfg.CoreOK) (n : Nat) (hn : n < s.cfg.fbBytes) :
    (repeatOp microStep n { s with seq := some (.reset 0 true) }).status = s.status ∧
    (repeatOp microStep n { s with seq := some (.reset 0 true) }).seq.isSome = true := by
  by_cases h : n < s.cfg.resetBytes
  · rw [resetPhase true n h]
    exact ⟨rfl, rfl⟩
  · have hb := bytesPerLed_pos hc
    obtain ⟨m, rfl⟩ : ∃ m, n = s.cfg.resetBytes + m := ⟨n - s.cfg.resetBytes, by omega⟩
    have hm : m < s.cfg.bytesPerLed * s.cfg.N := by
      unfold Config.fbBytes at hn
      omega
    have hj : m / s.cfg.bytesPerLed < s.cfg.N := by
      rw [Nat.div_lt_iff_lt_mul hb, Nat.mul_comm]
      exact hm
    have hx := Nat.mod_lt m hb
    have hd := Nat.div_add_mod m s.cfg.bytesPerLed
    generalize m / s.cfg.bytesPerLed = j at *
    generalize m % s.cfg.bytesPerLed = x at *
    subst hd
    rw [repeatOp_add, resetPhase_end true hc.2.2.2.2.1, if_pos rfl, repeatOp_add]
    have := colourPhase (s := packReset s) hc j (by exact hj.le)
    rw [show (packReset s).cfg = s.cfg from rfl] at this
    have start : startLed j (ledsDone j (packReset s)) = _ :=
      if_pos (show j < (ledsDone j (packReset s)).cfg.N from hj)
    have e := (congrArg (repeatOp microStep x) start).trans
      (packLedPhase (s := useDraws 1 (ledsDone j (packReset s))) hc j
        (cmEntry (ledsDone j (packReset s)).cm j (ledsDone j (packReset s)).draws) x hx)
    rw [this]
    exact ⟨(congrArg State.status e).trans rfl, (congrArg (fun u => u.seq.isSome) e).trans rfl⟩

end Sys2Proof.Machine
end

