-- ==== Sys2Proof/Laws/Step.lean ====
section
/-! SUPPORT. The step by its next event, and the one case analysis of a next state that step lemmas start from. -/

namespace Sys2Proof.Machine

theorem step_nil {s : State} (hc : s.cfg.CoreOK) (h : s.inputs = []) :
    step s = .next (quiet (takeEvent [] s)) := by
  rw [step, stepEvent, if_pos hc, h]

theorem step_cons {s : State} {e : Event} {rest : List Event} (hc : s.cfg.CoreOK) (h : s.inputs = e :: rest) :
    step s = handleEvent e (takeEvent rest s) := by
  rw [step, stepEvent, if_pos hc, h]

/-- The same on a state whose inputs are written out. -/
theorem step_withInputs_nil {s : State} (hc : s.cfg.CoreOK) :
    step { s with inputs := [] } = .next (quiet { s with inputs := [], cmdDone := false }) :=
  step_nil (s := { s with inputs := [] }) hc rfl

theorem step_withInputs_cons {s : State} (hc : s.cfg.CoreOK) (e : Event) (rest : List Event) :
    step { s with inputs := e :: rest } = handleEvent e { s with inputs := rest, cmdDone := false } :=
  step_cons (s := { s with inputs := e :: rest }) hc rfl

/-- An instance that does not exist has no step (spec/00_scope.md R9). -/
theorem step_illFormed {s : State} (hc : ¬ s.cfg.CoreOK) : step s = .refused .configurationError := by
  rw [step, stepEvent, if_neg hc]

/-- A step that goes on is one of a well-formed instance. -/
theorem coreOK_of_step {s t : State} (h : step s = .next t) : s.cfg.CoreOK := by
  by_contra hc
  simp [step_illFormed hc] at h

/-- Where a submission goes on, and how. -/
theorem transferCall_next {length : Nat} {ok : Bool} {s t : State} (h : transferCall length ok s = .next t) :
    (ok = false ∧ t = s) ∨
    (ok = true ∧ s.xfer = none ∧ length ≤ s.cfg.fbBytes ∧ t = startTransfer length s) := by
  unfold transferCall at h
  cases ok with
  | false => exact .inl ⟨rfl, by simpa using h.symm⟩
  | true =>
    simp only [Bool.not_true, Bool.false_eq_true, ↓reduceIte] at h
    split at h
    · split at h
      · cases h
      · split at h
        · cases h
        · split at h
          · cases h
          · rename_i hx _ hl
            exact .inr ⟨rfl, by simpa using hx, by omega, by simpa using h.symm⟩
    · cases h
    · cases h

/-- Every way a step can answer a next state (with the event taken off): a quiet step, an operation carried out or
accepted, a clock edge, a reset, a wait, a read port, a call of the transport, a byte of a transfer, the scheduler. -/
theorem step_next {s t : State} (h : step s = .next t) :
    (s.inputs = [] ∧ t = quiet (takeEvent [] s)) ∨
    ∃ e rest, s.inputs = e :: rest ∧ handleEvent e (takeEvent rest s) = .next t := by
  have hc := coreOK_of_step h
  cases hin : s.inputs with
  | nil => exact .inl ⟨rfl, by simpa [step_nil hc hin] using h.symm⟩
  | cons e rest => exact .inr ⟨e, rest, rfl, by rw [← step_cons hc hin]; exact h⟩

/-- Setting up the transport goes on once, with the instance's constants. -/
theorem configureCall_next {s t : State} (h : configureCall s = .next t) :
    s.busConfig = none ∧ t = { s with busConfig := some { fSpi := s.cfg.fSpi, maxXfer := s.cfg.maxXfer } } := by
  unfold configureCall at h
  split at h
  · cases h
  · rename_i hn
    exact ⟨by simpa using hn, by simpa using h.symm⟩

theorem beginCall_next {s t : State} (h : beginCall s = .next t) :
    s.busPin = none ∧ t = { s with busPin := some s.cfg.pin } := by
  unfold beginCall at h
  split at h
  · cases h
  · rename_i hn
    exact ⟨by simpa using hn, by simpa using h.symm⟩

/-- A command answers: carried out whole, accepted to run write by write, or still waiting. -/
theorem issueCommand_next {w : CmdWord} {s t : State} (h : issueCommand w s = .next t) :
    (busyBit s.status = false ∧ exec (decodeWord w) (holdPort none s) = .next t) ∨
    (busyBit s.status = false ∧
      t = { startOperation (decodeWord w) (holdPort none s) with inputs := .await :: s.inputs }) ∨
    (busyBit s.status = true ∧ t = quiet { holdPort (some w) s with inputs := .command w :: s.inputs }) := by
  unfold issueCommand cmdReady at h
  cases hb : busyBit s.status
  · simp only [hb, Bool.not_false, ↓reduceIte] at h
    split at h
    · exact .inl ⟨rfl, h⟩
    · exact .inr (.inl ⟨rfl, by simpa using h.symm⟩)
  · simp only [hb, Bool.not_true, Bool.false_eq_true, ↓reduceIte] at h
    exact .inr (.inr ⟨rfl, by simpa using h.symm⟩)

/-- HOST waiting for the end of a transfer: over when none is in flight, else what goes on goes on. -/
theorem awaitTransferEnd_cases (s : State) :
    (s.xfer = none ∧ awaitTransferEnd s = s) ∨
    (s.xfer ≠ none ∧ awaitTransferEnd s = quiet { s with inputs := .awaitTransfer :: s.inputs }) := by
  cases hx : s.xfer <;> simp [awaitTransferEnd, hx]

/-- A clock edge: reset, acceptance, nothing, or the core's writes of that cycle. -/
theorem clockEdge_cases (rst valid : Bool) (i : Instr) (work : Nat) (s : State) :
    (rst = true ∧ clockEdge rst valid i work s = resetCore s) ∨
    (rst = false ∧ busyBit s.status = false ∧ valid = true ∧ clockEdge rst valid i work s = startOperation i s) ∨
    (rst = false ∧ busyBit s.status = false ∧ valid = false ∧ clockEdge rst valid i work s = s) ∨
    (rst = false ∧ busyBit s.status = true ∧ clockEdge rst valid i work s = repeatOp microStep work s) := by
  unfold clockEdge cmdReady
  cases rst <;> cases valid <;> cases busyBit s.status <;> simp

end Sys2Proof.Machine
end

