-- ==== Sys2Proof/Laws/Invariant.lean ====
section
/-! SUPPORT. The machine invariant (Safety.lean) through each operation of the core and the transport. -/

namespace Sys2Proof.Machine

/-- The invariant speaks of these fields only. -/
theorem Inv.of_fields {s t : State} (h : Inv s) (cfg : t.cfg = s.cfg) (fb : t.fb = s.fb) (cm : t.cm = s.cm)
    (pat : t.pat = s.pat) (patOut : t.patOut = s.patOut)
    (bus : t.busConfig = s.busConfig) (pin : t.busPin = s.busPin) (busy : busyBit t.status = t.seq.isSome)
    (seq : ∀ q, t.seq = some q → SequencerOK s.cfg q) (xfer : ∀ x, t.xfer = some x → TransferOK s.cfg x) : Inv t where
  config := cfg ▸ h.config
  fbWf := fb ▸ h.fbWf
  fbBelow := cfg ▸ fb ▸ h.fbBelow
  cmWf := cm ▸ h.cmWf
  cmBelow := cfg ▸ cm ▸ h.cmBelow
  cmLow := cm ▸ h.cmLow
  patLength := by rw [cfg, pat, h.patLength]
  patOutLength := by rw [cfg, patOut, h.patOutLength]
  busySeq := busy
  seqOk := cfg ▸ seq
  xferOk := cfg ▸ xfer
  busOk := by rw [bus, cfg]; exact h.busOk
  pinOk := by rw [pin, cfg]; exact h.pinOk

theorem Inv.afterTakeEvent {s : State} (h : Inv s) (rest : List Event) : Inv (takeEvent rest s) :=
  h.of_fields rfl rfl rfl rfl rfl rfl rfl h.busySeq h.seqOk h.xferOk

theorem Inv.afterUseDraws {s : State} (h : Inv s) (n : Nat) : Inv (useDraws n s) :=
  h.of_fields rfl rfl rfl rfl rfl rfl rfl h.busySeq h.seqOk h.xferOk

theorem Inv.withInputs {s : State} (h : Inv s) (l : List Event) : Inv { s with inputs := l } :=
  h.of_fields rfl rfl rfl rfl rfl rfl rfl h.busySeq h.seqOk h.xferOk

theorem Inv.afterHoldPort {s : State} (h : Inv s) (o : Option CmdWord) : Inv (holdPort o s) :=
  h.of_fields rfl rfl rfl rfl rfl rfl rfl h.busySeq h.seqOk h.xferOk

theorem Inv.withSequencer {s : State} (h : Inv s) (hb : busyBit s.status = true) {q : Sequencer}
    (hq : SequencerOK s.cfg q) : Inv { s with seq := some q } :=
  h.of_fields rfl rfl rfl rfl rfl rfl rfl (by simpa using hb) (by simpa using hq) h.xferOk

theorem Inv.afterFinishSequencer {s : State} (h : Inv s) : Inv (finishSequencer s) :=
  h.of_fields rfl rfl rfl rfl rfl rfl rfl (by simp) (by simp) h.xferOk

theorem Inv.afterWriteFb {s : State} (h : Inv s) {a : Nat} (ha : a < s.cfg.fbBytes) (b : Byte) : Inv (writeFb a b s) :=
  { h with fbWf := memWrite_wf _ _ h.fbWf, fbBelow := memWrite_below _ h.fbBelow ha }

theorem Inv.afterWriteCm {s : State} (h : Inv s) {i : Nat} (hi : i < s.cfg.N) {v : Word} (hv : v.toNat < 2 ^ 24) :
    Inv (writeCm i v s) :=
  { h with
    cmWf := memWrite_wf _ _ h.cmWf, cmBelow := memWrite_below _ h.cmBelow hi
    cmLow := fun x hx => by
      rcases mem_memWrite hx with rfl | hx
      exacts [hv, h.cmLow x hx] }

/-- A generated color has no bit above 23 (spec/42_color_map.md R54(c)). -/
theorem colorAt_low (N o i : Nat) : (colorAt N o i).toNat < 2 ^ 24 := by
  unfold colorAt colorIntensity
  rw [BitVec.toNat_ofNat, Nat.shiftLeft_eq]
  refine lt_of_le_of_lt (Nat.mod_le _ _) ?_
  have h3 : colorVal N o i % 3 ≤ 2 := by omega
  have h2 : colorVal N o i / 2 % 256 ≤ 255 := by omega
  calc _ ≤ 255 * 2 ^ (8 * 2) := Nat.mul_le_mul h2 (Nat.pow_le_pow_right (by omega) (by omega))
    _ < _ := by norm_num

theorem slotOK_first {c : Config} (hc : c.CoreOK) {base : Nat} (h : base + c.bytesPerLed ≤ c.fbBytes) :
    SlotOK c base 0 base := by
  have := patBytes_pos hc
  exact ⟨h, by omega, by simp, by simpa using this⟩

/-- The write pointer of an LED in progress is an address of the buffer. -/
theorem slotOK_lt {c : Config} {base k wp : Nat} (h : SlotOK c base k wp) : wp < c.fbBytes := by
  obtain ⟨fits, hk, -, hlt⟩ := h
  have : c.patBytes * (k + 1) ≤ c.patBytes * 12 := Nat.mul_le_mul_left _ hk
  unfold Config.bytesPerLed at fits
  omega

theorem slotOK_next {c : Config} (hc : c.CoreOK) {base k wp k' wp' : Nat} (h : SlotOK c base k wp)
    (hn : nextPair c base k wp = some (k', wp')) : SlotOK c base k' wp' := by
  have hp := patBytes_pos hc
  obtain ⟨fits, hk, hle, hlt⟩ := h
  unfold nextPair at hn
  have e : c.patBytes * (k + 1) = c.patBytes * k + c.patBytes := by ring
  have e2 : c.patBytes * (k + 1 + 1) = c.patBytes * k + c.patBytes + c.patBytes := by ring
  split at hn
  · simp only [Option.some.injEq, Prod.mk.injEq] at hn
    obtain ⟨rfl, rfl⟩ := hn
    exact ⟨fits, hk, by omega, by omega⟩
  · split at hn
    · simp only [Option.some.injEq, Prod.mk.injEq] at hn
      obtain ⟨rfl, rfl⟩ := hn
      exact ⟨fits, by omega, by omega, by omega⟩
    · simp at hn

theorem Inv.afterStartLed {s : State} (h : Inv s) (hb : busyBit s.status = true) (j : Nat) : Inv (startLed j s) := by
  unfold startLed
  split
  · rename_i hj
    exact (h.afterUseDraws 1).withSequencer hb (q := .packLed j _ 0 _)
      ⟨hj, slotOK_first h.config (ledBase_fits _ hj)⟩
  · exact h.afterFinishSequencer

theorem resetBytes_le_fbBytes (c : Config) : c.resetBytes ≤ c.fbBytes := Nat.le_add_right _ _

theorem Inv.afterMicroStep {s : State} (h : Inv s) : Inv (microStep s) := by
  have hb := h.busySeq
  have hq := h.seqOk
  have hc := h.config
  unfold microStep
  split
  · exact h
  · exact h.afterFinishSequencer
  · exact Inv.afterFinishSequencer (s := encodeSymbol _ s) { h with patLength := symbolEncoder_length hc _ }
  all_goals
    rename_i heq
    rw [heq] at hb
    have hq := hq _ heq
    dsimp only
  · rename_i o i thenPack
    have h1 : Inv (writeCm i (colorAt s.cfg.N o.toNat i) s) := h.afterWriteCm hq (colorAt_low s.cfg.N _ _)
    split
    · exact h1.withSequencer hb (by assumption)
    · split
      · exact h1.withSequencer hb (show 0 < s.cfg.resetBytes from hc.2.2.2.2.1)
      · exact h1.afterFinishSequencer
  · rename_i wp thenColour
    have h1 : Inv (writeFb wp 0#8 s) := h.afterWriteFb (lt_of_lt_of_le hq (resetBytes_le_fbBytes _)) _
    split
    · exact h1.withSequencer hb (by assumption)
    · split
      · exact h1.afterStartLed hb 0
      · exact h1.afterFinishSequencer
  · have h1 := h.afterWriteFb (slotOK_lt hq)
    split
    · exact (h1 _).withSequencer hb (slotOK_next hc hq (by assumption))
    · exact (h1 _).afterFinishSequencer
  · have h1 := h.afterWriteFb (slotOK_lt hq.2)
    split
    · exact (h1 _).withSequencer hb ⟨hq.1, slotOK_next hc hq.2 (by assumption)⟩
    · exact (h1 _).afterStartLed hb _

theorem Inv.afterXferRead {s : State} (h : Inv s) : Inv (xferRead s) := by
  unfold xferRead
  split
  · exact h
  · rename_i x hx
    refine h.of_fields rfl rfl rfl rfl rfl rfl rfl h.busySeq h.seqOk fun y hy => ?_
    obtain ⟨-, hlen, hwf, hbelow⟩ := h.xferOk x hx
    simp only at hy
    split at hy
    · obtain rfl : _ = y := Option.some.inj hy
      exact ⟨by assumption, hlen, hwf, hbelow⟩
    · simp at hy

theorem Inv.afterQuiet {s : State} (h : Inv s) : Inv (quiet s) := by
  rcases quiet_cases s with ⟨u, rfl | rfl, -, e⟩ | ⟨u, rfl | rfl, -, e⟩ | ⟨-, -, e⟩ <;> rw [e]
  exacts [h.afterMicroStep, (h.afterUseDraws 1).afterMicroStep, h.afterXferRead, (h.afterUseDraws 1).afterXferRead, h]

theorem Inv.afterStartOperation {s : State} (h : Inv s) (i : Instr) : Inv (startOperation i s) := by
  have hc := h.config
  have accepted : ∀ (st : BitVec 3) (q : Sequencer), busyBit st = true → SequencerOK s.cfg q →
      Inv { s with status := st, seq := some q } := fun st q hb hq =>
    h.of_fields rfl rfl rfl rfl rfl rfl rfl (by simpa using hb) (by simpa using hq) h.xferOk
  have hb : busyBit (setBusy s.status) = true := busyBit_setBusy _
  have he : ∀ e, busyBit (setError e (setBusy s.status)) = true := fun e => by rw [busyBit_setError, hb]
  cases i with
  | packclr off color =>
    simp only [startOperation]
    split
    · exact accepted _ _ hb (slotOK_first hc ((fitsBuffer_iff _ _).mp (by assumption)))
    · exact accepted _ .finish (he _) trivial
  | reserved7 => exact accepted _ .finish (he _) trivial
  | nop => exact accepted _ .finish hb trivial
  | enc sym => exact accepted _ (.latch sym) hb trivial
  | packrst => exact accepted _ (.reset 0 false) hb hc.2.2.2.2.1
  | updmap offset => exact accepted _ (.map offset 0 false) hb hc.2.2.2.1
  | packfrm => exact accepted _ (.reset 0 true) hb hc.2.2.2.2.1
  | build offset => exact accepted _ (.map offset 0 true) hb hc.2.2.2.1

theorem Inv.afterUpdateMap {s : State} (h : Inv s) (offset : Word) : Inv (updateMap offset s) :=
  { h with
    cmWf := forUp_memWrite_wf _ _ h.cmWf
    cmBelow := forUp_memWrite_below _ (le_refl _) h.cmBelow
    cmLow := forUp_keeps (P := fun m : ColorMap => ∀ x ∈ m, x.2.toNat < 2 ^ 24) h.cmLow fun i _ t ht x hx => by
      rcases mem_memWrite hx with rfl | hx
      exacts [colorAt_low _ _ _, ht x hx] }

theorem Inv.afterPackFrame {s : State} (h : Inv s) : Inv (packFrame s) :=
  { h with fbWf := packFrame_wf h.fbWf, fbBelow := packFrame_below h.config h.fbBelow }

theorem Inv.afterRaiseError {s : State} (h : Inv s) (e : CoreError) : Inv (raiseError e s) :=
  { h with busySeq := by rw [raiseError_status, busyBit_setError]; exact h.busySeq }

theorem Inv.afterEffect {s : State} (h : Inv s) (i : Instr) : Inv (effect i s) := by
  have hc := h.config
  cases i with
  | nop => exact h
  | enc sym => exact { h with patLength := symbolEncoder_length hc _ }
  | packrst =>
    exact { h with
      fbWf := forUp_memWrite_wf _ _ h.fbWf
      fbBelow := forUp_memWrite_below _ (resetBytes_le_fbBytes s.cfg) h.fbBelow }
  | packclr off color =>
    simp only [effect]
    rcases packColor_cases off.toNat color s with ⟨hf, e⟩ | ⟨-, e⟩ <;> rw [e]
    · exact { h with fbWf := writePatterns_wf _ _ _ h.fbWf, fbBelow := writePatterns_below hc _ h.fbBelow hf }
    · exact h.afterRaiseError _
  | updmap offset => exact h.afterUpdateMap offset
  | packfrm => exact h.afterPackFrame
  | build offset => exact (h.afterUpdateMap offset).afterPackFrame
  | reserved7 => exact h.afterRaiseError _

theorem Inv.afterExec {s t : State} {i : Instr} (h : Inv s) (hb : busyBit s.status = false)
    (e : exec i s = .next t) : Inv t := by
  rw [exec_next e]
  have h' := h.afterEffect i
  have hs : s.seq.isSome = false := by rw [← h.busySeq, hb]
  refine h'.of_fields rfl rfl rfl rfl rfl rfl rfl ?_ h'.seqOk h'.xferOk
  rw [effect_outside]
  simp [complete, hs]

theorem foldl_memWrite_wf (l : FrameBuf) {m : FrameBuf} (h : Memory.wf m) :
    Memory.wf (l.foldl (fun m cell => memWrite m cell.1 cell.2) m) := by
  induction l generalizing m with
  | nil => exact h
  | cons x l ih => exact ih (memWrite_wf _ _ h)

theorem foldl_memWrite_below (l : FrameBuf) {n : Nat} {m : FrameBuf} (h : Memory.below m n) (hl : Memory.below l n) :
    Memory.below (l.foldl (fun m cell => memWrite m cell.1 cell.2) m) n := by
  induction l generalizing m with
  | nil => exact h
  | cons x l ih => exact ih (memWrite_below _ h (hl x (by simp))) fun y hy => hl y (by simp [hy])

/-- Reads of a memory laid over another one. -/
theorem memRead_foldl_memWrite {l : FrameBuf} (hl : Memory.wf l) (m : FrameBuf) (a : Nat) :
    memRead (l.foldl (fun m cell => memWrite m cell.1 cell.2) m) a = (memRead l a).or (memRead m a) := by
  induction l generalizing m with
  | nil => simp
  | cons x l ih =>
    obtain ⟨first, rest⟩ := wf_cons.mp hl
    rw [List.foldl_cons, ih rest, memRead_memWrite, memRead_cons]
    by_cases h : a = x.1
    · subst h
      rw [memRead_eq_none_of_lt first]
      simp
    · simp [h]

theorem Inv.afterResetCore {s : State} (h : Inv s) : Inv (resetCore s) where
  config := h.config
  fbWf := wf_nil
  fbBelow := by simp [resetCore]
  cmWf := wf_nil
  cmBelow := by simp [resetCore]
  cmLow := by simp [resetCore]
  patLength := h.patLength
  patOutLength := h.patOutLength
  busySeq := by simp [resetCore, busyBit]
  seqOk := by simp [resetCore]
  xferOk := fun y hy => by
    simp only [resetCore, Option.map_eq_some_iff] at hy
    obtain ⟨x, hx, rfl⟩ := hy
    obtain ⟨hnext, hlen, hwf, hbelow⟩ := h.xferOk x hx
    exact ⟨hnext, hlen, foldl_memWrite_wf _ hwf, foldl_memWrite_below _ hbelow h.fbBelow⟩
  busOk := h.busOk
  pinOk := h.pinOk

theorem Inv.afterBeginTransfer {s : State} (h : Inv s) {n : Nat} (hn : n ≤ s.cfg.fbBytes) :
    Inv (beginTransfer n s) := by
  unfold beginTransfer
  split
  · exact h
  · refine h.of_fields rfl rfl rfl rfl rfl rfl rfl h.busySeq h.seqOk fun x hx => ?_
    obtain rfl : _ = x := Option.some.inj hx
    exact ⟨Nat.pos_of_ne_zero (by assumption), hn, wf_nil, by simp⟩

theorem Inv.afterStartTransfer {s : State} (h : Inv s) {n : Nat} (hn : n ≤ s.cfg.fbBytes) :
    Inv (startTransfer n s) := by
  have begun := h.afterBeginTransfer hn
  unfold startTransfer
  split
  · split
    · exact repeatOp_keeps (P := Inv) (fun t ht => ht.afterXferRead) n begun
    · exact begun.withInputs _
  · exact begun

theorem Inv.afterConfigureCall {s t : State} (h : Inv s) (e : configureCall s = .next t) : Inv t := by
  obtain ⟨-, rfl⟩ := configureCall_next e
  exact { h with busOk := fun bus hb => (Option.some.inj hb).symm }

theorem Inv.afterBeginCall {s t : State} (h : Inv s) (e : beginCall s = .next t) : Inv t := by
  obtain ⟨-, rfl⟩ := beginCall_next e
  exact { h with pinOk := fun pin hp => (Option.some.inj hp).symm }

end Sys2Proof.Machine
end

