-- ==== Sys2Proof/Laws/PerInstr.lean ====
section
/-! SUPPORT. The family TableRow: an operation's command word matches its row of spec/opcode_table.json, that is
`word & mask = match` with the row's mask and match. -/

namespace Sys2Proof.Laws.TableRow

/-- The row's `mask` covers the three opcode bits only (spec/30_encoding.md R39); its `match` is the opcode there. -/
def Statement (i : Instr) : Prop :=
  encode i &&& 0x70000000000000000#67 = BitVec.ofNat 67 ((opcodeOf i).toNat * 2 ^ 64)

theorem assemble_masked (op : BitVec 3) (a1 a0 : Word) :
    assemble op a1 a0 &&& 0x70000000000000000#67 = BitVec.ofNat 67 (op.toNat * 2 ^ 64) := by
  have h0 := a0.isLt
  have h1 := a1.isLt
  have h2 := op.isLt
  have hm : (0x70000000000000000#67).toNat = 7 <<< 64 := rfl
  have hw : (assemble op a1 a0).toNat = op.toNat <<< 64 ||| (a1.toNat * 2 ^ 32 + a0.toNat) := by
    rw [assemble_toNat, ← Nat.shiftLeft_add_eq_or_of_lt (by omega), Nat.shiftLeft_eq]
    omega
  apply BitVec.eq_of_toNat_eq
  rw [BitVec.toNat_and, hw, hm, BitVec.toNat_ofNat, Nat.mod_eq_of_lt (by omega), Nat.and_comm,
    Nat.and_or_distrib_left, ← Nat.shiftLeft_and_distrib]
  have low : 7 <<< 64 &&& (a1.toNat * 2 ^ 32 + a0.toNat) = 0 := by
    apply Nat.eq_of_testBit_eq
    intro k
    rw [Nat.testBit_and, Nat.testBit_shiftLeft, Nat.zero_testBit]
    by_cases hk : 64 ≤ k
    · rw [Nat.testBit_lt_two_pow (x := a1.toNat * 2 ^ 32 + a0.toNat)
        (Nat.lt_of_lt_of_le (by omega) (Nat.pow_le_pow_right (by omega) hk))]
      simp
    · simp [hk]
  have high : 7 &&& op.toNat = op.toNat := by
    rw [Nat.and_comm]
    exact (Nat.and_two_pow_sub_one_eq_mod op.toNat 3).trans (Nat.mod_eq_of_lt h2)
  rw [low, high, Nat.or_zero, Nat.shiftLeft_eq]

theorem nop : Statement .nop := assemble_masked _ _ _
theorem enc (sym : BitVec 2) : Statement (.enc sym) := assemble_masked _ _ _
theorem packrst : Statement .packrst := assemble_masked _ _ _
theorem packclr (off color : Word) : Statement (.packclr off color) := assemble_masked _ _ _
theorem updmap (offset : Word) : Statement (.updmap offset) := assemble_masked _ _ _
theorem packfrm : Statement .packfrm := assemble_masked _ _ _
theorem build (offset : Word) : Statement (.build offset) := assemble_masked _ _ _
theorem reserved7 : Statement .reserved7 := assemble_masked _ _ _

end Sys2Proof.Laws.TableRow
end

