-- ==== Sys2Proof/Laws/Transport.lean ====
section
/-! SUPPORT. The transport's reads one by one (spec/60_exceptions.md R73), and runs of several steps. -/

namespace Sys2Proof.Machine

/-- One read of a byte that has been written. -/
theorem xferRead_written {s : State} {n length : Nat} {held : FrameBuf} {b : Byte}
    (hx : s.xfer = some { next := n, length := length, held := held }) (hm : memRead s.fb n = some b) :
    xferRead s = { s with
      draws := s.draws + 1, wire := s.wire ++ [b]
      xfer := if n + 1 < length then some { next := n + 1, length := length, held := held } else none } := by
  simp [xferRead, hx, xferByte, hm, useDraws]

/-- A transfer before its last byte. -/
theorem repeatOp_xferRead {s : State} {length : Nat} {held : FrameBuf} {byte : Nat → Byte}
    (hx : s.xfer = some { next := 0, length := length, held := held })
    (hm : ∀ a < length, memRead s.fb a = some (byte a)) (n : Nat) (hn : n < length) :
    repeatOp xferRead n s = { s with
      wire := s.wire ++ (List.range n).map byte, xfer := some { next := n, length := length, held := held }
      draws := s.draws + n } := by
  induction n with
  | zero => simp [← hx]
  | succ n ih =>
    rw [repeatOp_succ', ih (by omega), xferRead_written (s := { s with
      wire := s.wire ++ (List.range n).map byte, xfer := some { next := n, length := length, held := held }
      draws := s.draws + n }) rfl (hm n (by omega))]
    simp [hn, List.range_succ]
    omega

/-- A submission to a transport that does not block. -/
theorem startTransfer_nonblocking {s : State} {n : Nat} (hn : 1 ≤ n) (h : s.cfg.blocking = false) :
    startTransfer n s = { s with xfer := some { next := 0, length := n, held := [] } } := by
  have : ¬ n = 0 := by omega
  simp [startTransfer, beginTransfer, this, h]

/-- A submission to a blocking transport with the core busy: HOST is held until the transfer is over. -/
theorem startTransfer_busy {s : State} {n : Nat} (hn : 1 ≤ n) (h : s.cfg.blocking = true)
    (hb : busyBit s.status = true) :
    startTransfer n s = { s with
      xfer := some { next := 0, length := n, held := [] }, inputs := .awaitTransfer :: s.inputs } := by
  have : ¬ n = 0 := by omega
  simp [startTransfer, beginTransfer, cmdReady, this, h, hb]

theorem run_succ {M : Host.Core} {s t : M.State} (n : Nat) (h : M.step s = .next t) : M.run (n + 1) s = M.run n t := by
  simp [Host.Core.run, h]

theorem run_one {M : Host.Core} (s : M.State) : M.run 1 s = M.step s := by
  simp only [Host.Core.run]
  split <;> simp [*]

end Sys2Proof.Machine
end

