-- ==== Sys2Proof/Laws/Waveform.lean ====
section
/-! SUPPORT. Run lengths of pulses (spec/40_symbol_encoder.md R43(d), R46(b)). -/

namespace Sys2Proof.Machine

theorem runLengths_cons_head (b : Bool) (l : List Bool) : ∃ n rs, runLengths (b :: l) = (b, n) :: rs := by
  rw [runLengths]
  split
  · exact ⟨_, _, rfl⟩
  · split
    · rename_i h
      subst h
      exact ⟨_, _, rfl⟩
    · exact ⟨_, _, rfl⟩

/-- A run of one level followed by the other level, or by nothing, is one run of its length. -/
theorem runLengths_replicate (b : Bool) {n : Nat} (hn : 0 < n) {l : List Bool}
    (hl : ∀ x, l.head? = some x → x ≠ b) : runLengths (List.replicate n b ++ l) = (b, n) :: runLengths l := by
  induction n with
  | zero => omega
  | succ n ih =>
    rcases Nat.eq_zero_or_pos n with rfl | hp
    · cases l with
      | nil => rfl
      | cons x l =>
        obtain ⟨m, rs, h⟩ := runLengths_cons_head x l
        simp only [List.replicate_succ, List.replicate_zero, List.cons_append, List.nil_append]
        rw [runLengths, h]
        simp [(hl x rfl).symm]
    · rw [List.replicate_succ, List.cons_append, runLengths, ih hp]
      simp

/-- A pulse with both runs non-empty is its two runs. -/
theorem runLengths_pulse {E h : Nat} (h1 : 1 ≤ h) (h2 : h ≤ E - 1) {l : List Bool}
    (hl : ∀ x, l.head? = some x → x = true) :
    runLengths (pulse E h ++ l) = (true, h) :: (false, E - h) :: runLengths l := by
  rw [pulse, List.append_assoc, runLengths_replicate _ (by omega), runLengths_replicate _ (by omega)]
  · intro x hx
    simp [hl x hx]
  · intro x hx
    obtain ⟨m, hm⟩ : ∃ m, E - h = m + 1 := ⟨E - h - 1, by omega⟩
    simp [hm, List.replicate_succ] at hx
    simp [← hx]

theorem pulse_head {E h : Nat} (h1 : 1 ≤ h) (l : List Bool) : ∀ x, (pulse E h ++ l).head? = some x → x = true := by
  obtain ⟨m, rfl⟩ : ∃ m, h = m + 1 := ⟨h - 1, by omega⟩
  intro x hx
  simpa [pulse, List.replicate_succ, eq_comm] using hx

theorem highRun_bounds {c : Config} {h0 h1 : Nat} (hp : PulseShaped c h0 h1) (b : Bool) :
    1 ≤ highRun h0 h1 b ∧ highRun h0 h1 b ≤ c.E - 1 := by
  obtain ⟨h0pos, hlt, hle, -⟩ := hp
  cases b <;> simp [highRun] <;> omega

theorem wireBits_append (a b : List Byte) : wireBits (a ++ b) = wireBits a ++ wireBits b := by
  simp [wireBits]

end Sys2Proof.Machine
end

