-- ==== Sys2Proof/Tests/Slice0.lean ====
section
/-! SUPPORT. The author's tests: ill-formed configurations refused, words written out from the spec's encoding,
expected results from spec/95_test_vectors.md (each test names its vector), and for every statement with hypotheses a
concrete input that meets them. -/

namespace Sys2Proof.Tests

open Sys2Proof.Machine

/-! ## Small configurations and states -/

/-- Variant B with `n` LEDs and a reset region of `r` bytes (the core-only configurations of P1 to P4). -/
def confB (n r : Nat) : Config := { Config.default with N := n, resetBytes := r }

/-- Variant A likewise. -/
def confA (n r : Nat) : Config :=
  { Config.default with variant := .A, E := 12, table := Config.tableA, N := n, resetBytes := r }

/-- The complete configuration of P6. -/
def confP6 : Config := { confA 144 100 with fSpi := 10000000, maxXfer := 5284 }

/-- Right after reset, the configuration of P3, P4 and V9: `FB_BYTES = 26`. -/
def start : State := State.resetOf (confB 2 2)

/-- The map of V9 written. -/
def mapped : State := { start with cm := [(0, 0x010000#32), (1, 0x000001#32)] }

/-- The last write of LED 1 of a PACKFRM still to come, a transfer in flight, both errors recorded, a reset behind. -/
def busy : State :=
  { mapped with
    status := 0b111#3
    seq := some (.packLed 1 0x000001#32 11 25)
    fb := [(0, 0x00#8), (5, 0x8E#8)]
    xfer := some { next := 5, length := 26, held := [(6, 0xE8#8)] } }

/-- The transport configured and begun, with the constants of an instance whose frame it just takes. -/
def ready : State :=
  { start with
    cfg := { confB 2 2 with maxXfer := 26, pin := 7 }
    busConfig := some { fSpi := 3200000, maxXfer := 26 }
    busPin := some 7 }

/-- A tick about to begin, with the smallest interval sample that fires. -/
def ticking (blocking : Bool) : State :=
  { ready with cfg := { ready.cfg with blocking := blocking }, inputs := [.poll 100#32 true] }

/-- The state an outcome leaves. -/
def nextOf (o : Host.Outcome State Fault Refusal) : Option State :=
  match o with
  | .next t => some t
  | .fault _ => none
  | .refused _ => none

/-- The name of a refusal. -/
def refusalOf (o : Host.Outcome State Fault Refusal) : Option Refusal :=
  match o with
  | .next _ => none
  | .fault _ => none
  | .refused r => some r

/-- The bytes listed in `FB`, lowest address first. -/
def fbBytesOf (o : Host.Outcome State Fault Refusal) : Option (List Byte) := (nextOf o).map fun t => t.fb.map Prod.snd

/-- The words listed in `CM`, lowest index first. -/
def cmWordsOf (o : Host.Outcome State Fault Refusal) : Option (List Word) := (nextOf o).map fun t => t.cm.map Prod.snd

/-- STATUS, the sequencer and the listed bytes of `FB`. -/
def coreOf (o : Host.Outcome State Fault Refusal) : Option (BitVec 3 × Option Sequencer × FrameBuf) :=
  (nextOf o).map fun t => (t.status, t.seq, t.fb)

def statusOf (o : Host.Outcome State Fault Refusal) : Option (BitVec 3) := (nextOf o).map State.status

/-! ## Ill-formed configurations are refused, clause by clause (R9) -/

theorem test_wf_accepts_small : (confB 2 2).CoreOK ∧ (confA 4 3).CoreOK := by decide
theorem test_wf_accepts_P5_P6 : Config.default.OK ∧ confP6.OK := by decide
theorem test_wf_refuses_variant_A_with_E4 : ¬ { confB 2 2 with variant := .A }.CoreOK := by decide
theorem test_wf_refuses_variant_B_with_E12 : ¬ { confA 2 2 with variant := .B }.CoreOK := by decide
theorem test_wf_refuses_E_not_multiple_of_4 :
    ¬ { confB 2 2 with variant := .custom, E := 6 }.CoreOK := by decide
theorem test_wf_refuses_E_zero : ¬ { confB 2 2 with variant := .custom, E := 0 }.CoreOK := by decide
theorem test_wf_refuses_no_leds : ¬ (confB 0 2).CoreOK := by decide
theorem test_wf_refuses_no_reset_region : ¬ (confB 2 0).CoreOK := by decide
theorem test_wf_refuses_buffer_of_4GiB : ¬ (confB (2 ^ 32) 2).CoreOK := by decide
theorem test_wf_refuses_pattern_length :
    ¬ { confB 2 2 with table := { Config.tableB with p3 := [0xEE#8, 0xEE#8] } }.CoreOK := by decide
theorem test_wf_refuses_equal_patterns :
    ¬ { confB 2 2 with table := { Config.tableB with p3 := [0x88#8] } }.CoreOK := by decide
theorem test_wf_refuses_clock_zero : ¬ { confB 2 2 with fSpi := 0 }.TimingOK := by decide
theorem test_wf_refuses_short_reset_region : ¬ { Config.default with resetBytes := 31 }.TimingOK := by decide
theorem test_wf_refuses_small_transport : ¬ { Config.default with maxXfer := 1759 }.TimingOK := by decide
theorem test_wf_refuses_interval_zero : ¬ { Config.default with intervalMs := 0 }.InRange := by decide
/-- R9, R63(a): an instance whose configuration is not well formed is not built, and such a state has no step; a core
alone needs the core clauses only (C10). -/
theorem test_build_refuses :
    refusalOf (buildInstance { Config.default with intervalMs := 0 }) = some .configurationError ∧
    refusalOf (buildInstance (confB 2 2)) = some .configurationError ∧
    nextOf (buildCore (confB 2 2)) = some start ∧ refusalOf (buildCore (confB 0 2)) = some .configurationError ∧
    refusalOf (step (State.resetOf (confB 0 2))) = some .configurationError := by decide
theorem test_build_reset : nextOf (buildInstance Config.default) = some State.reset := by decide
theorem test_wf_packled : packLedCommand (confB 2 2) 1 0x00E4E4E4#32 = some (.packclr 14#32 0x00E4E4E4#32) ∧
    packLedCommand (confB 2 2) 2 0x00E4E4E4#32 = none := by decide
theorem test_wf_error_free : Instr.errorFree (confB 2 2) (.packclr 14#32 0#32) = true ∧
    Instr.errorFree (confB 2 2) (.packclr 15#32 0#32) = false ∧
    Instr.errorFree (confB 2 2) .reserved7 = false := by decide

/-! ## Decoding: words written out from R33, R34, R36 (V1, V20 to V22) -/

theorem test_decode_refuses_68_bits : decode 0x80000000000000000 = .error .tooWide := by decide
theorem test_decode_nop : decodeTableWord 72 0x0FFFFFFFFFFFFFFFF = some .nop := by decide
theorem test_decode_enc : decodeTableWord 72
    0b001_00000000000000000000000000000000_00000000000000000000000000000011 = some (.enc 3#2) := by decide
theorem test_decode_enc_masks : decodeTableWord 72 0x100000000FFFFFFFE = some (.enc 2#2) := by decide
theorem test_decode_packrst : decodeTableWord 72 0x2DEADBEEF12345678 = some .packrst := by decide
theorem test_decode_packclr : decodeTableWord 72
    0b011_00000000111111111000000000000000_00000000000000000000000000100000 =
      some (.packclr 32#32 0x00FF8000#32) := by decide
theorem test_decode_updmap : decodeTableWord 72 0x40000000000000005 = some (.updmap 5#32) := by decide
theorem test_decode_packfrm : decodeTableWord 72
    0b101_00000000000000000000000000000000_00000000000000000000000000000000 = some .packfrm := by decide
theorem test_decode_build : decodeTableWord 72
    0b110_00000000000000000000000000000000_11111111111111111111111111111111 =
      some (.build 0xFFFFFFFF#32) := by decide
theorem test_decode_reserved : decodeTableWord 72 0x7FFFFFFFFFFFFFFFF = some .reserved7 := by decide
theorem test_encode_words : (encode (.packclr 2#32 0xFF123456#32)).toNat = 0x3FF12345600000002 ∧
    (encode (.enc 2#2)).toNat = 0x10000000000000002 := by decide

/-! ## Each operation, one step -/

/-- V1. -/
theorem test_enc_B : (nextOf (exec (.enc 2#2) start)).map State.pat = some [0xE8#8] := by decide
/-- V2. -/
theorem test_enc_A : (nextOf (exec (.enc 1#2) (State.resetOf (confA 4 3)))).map State.pat =
    some [0xF0#8, 0x0F#8, 0xF0#8] := by decide
/-- V4. -/
theorem test_packrst : fbBytesOf (exec .packrst { start with fb := [(0, 0xA1#8), (1, 0xA2#8), (2, 0xA3#8), (7, 0xA8#8)] }) =
    some [0x00#8, 0x00#8, 0xA3#8, 0xA8#8] := by decide
/-- V6, top byte set, at the slot of LED 1. -/
theorem test_packclr : fbBytesOf (exec (.packclr 14#32 0xFF123456#32) start) =
    some [0x88#8, 0x8E#8, 0x88#8, 0xE8#8, 0x88#8, 0xEE#8, 0x8E#8, 0x88#8, 0x8E#8, 0x8E#8, 0x8E#8, 0xE8#8] := by decide
/-- V8: one too far, and the offsets a 32-bit sum would wrap. -/
theorem test_packclr_bounds :
    (nextOf (exec (.packclr 15#32 0#32) start)) = some { start with status := 0b010#3, cmdDone := true } ∧
    statusOf (exec (.packclr 0xFFFFFFFF#32 0#32) start) = some 0b010#3 ∧
    statusOf (exec (.packclr 0xFFFFFFF5#32 0#32) start) = some 0b010#3 := by decide
/-- V14, offset 5. -/
theorem test_updmap : cmWordsOf (exec (.updmap 5#32) (State.resetOf (confB 6 2))) =
    some [0x020000#32, 0#32, 0#32, 0x010000#32, 0x000001#32, 0x000200#32] := by decide
/-- V14, offset `0xFFFFFFFF`: the exact sum. -/
theorem test_updmap_exact : cmWordsOf (exec (.updmap 0xFFFFFFFF#32) (State.resetOf (confB 6 2))) =
    some [0x000001#32, 0x000200#32, 0x020000#32, 0#32, 0#32, 0x010000#32] := by decide
/-- V9. -/
theorem test_packfrm : fbBytesOf (exec .packfrm mapped) = some
    ([0x00#8, 0x00#8] ++ [0x88#8, 0x88#8, 0x88#8, 0x8E#8, 0x88#8, 0x88#8, 0x88#8, 0x88#8, 0x88#8, 0x88#8, 0x88#8, 0x88#8] ++
      [0x88#8, 0x88#8, 0x88#8, 0x88#8, 0x88#8, 0x88#8, 0x88#8, 0x88#8, 0x88#8, 0x88#8, 0x88#8, 0x8E#8]) := by decide
/-- V10: bits 31-24 of the map play no part. -/
theorem test_packfrm_high_bits :
    fbBytesOf (exec .packfrm { start with cm := [(0, 0xFF010000#32), (1, 0x80000001#32)] }) =
      fbBytesOf (exec .packfrm mapped) := by decide
set_option maxRecDepth 20000 in
/-- P2: the last pattern of LED 0 and the fourth of LED 3 after `BUILD 3`, both index 1. -/
theorem test_build_A : (fbBytesOf (exec (.build 3#32) (State.resetOf (confA 4 3)))).map (fun l =>
      ((l.drop 36).take 3, (l.drop 120).take 3)) =
    some ([0xF0#8, 0x0F#8, 0xF0#8], [0xF0#8, 0x0F#8, 0xF0#8]) := by decide
/-- P1: LED 3 and LED 4 after `BUILD 1`, and the map. -/
theorem test_build_B : (nextOf (exec (.build 1#32) (State.resetOf (confB 6 2)))).map (fun t =>
      (t.cm.map Prod.snd, ((t.fb.map Prod.snd).drop 38).take 24)) =
    some ([0#32, 0x010000#32, 0x000001#32, 0x000200#32, 0x020000#32, 0#32],
      [0x88#8, 0x88#8, 0x88#8, 0x88#8, 0x88#8, 0x88#8, 0x88#8, 0xE8#8, 0x88#8, 0x88#8, 0x88#8, 0x88#8,
       0x88#8, 0x88#8, 0x88#8, 0xE8#8, 0x88#8, 0x88#8, 0x88#8, 0x88#8, 0x88#8, 0x88#8, 0x88#8, 0x88#8]) := by decide
/-- V20. -/
theorem test_nop : nextOf (exec .nop mapped) = some { mapped with cmdDone := true } := by decide
/-- P4: the error bits add up and stay. -/
theorem test_reserved : statusOf (exec .reserved7 { start with status := 0b010#3 }) = some 0b110#3 ∧
    statusOf (exec .nop { start with status := 0b110#3 }) = some 0b110#3 := by decide
/-- V16: the mask comes before the shift. V17, offset 1000. -/
theorem test_color_mask : colorAt 600 0 509 = 0xFE0000#32 ∧ colorAt 600 0 510 = 0x0000FF#32 ∧
    colorAt 600 0 511 = 0x00FF00#32 ∧ colorAt 600 0 512 = 0#32 ∧ colorAt 600 0 514 = 0x000100#32 ∧
    colorAt 600 0 599 = 0x2B0000#32 ∧ colorAt 144 1000 7 = 0x470000#32 ∧ colorAt 144 1000 142 = 0x430000#32 := by decide

/-! ## Layout, waveform, the core write by write, reset, HOST, TRANSPORT -/

/-- V23. -/
theorem test_layout : Config.default.ledBase 143 = 1748 ∧ Config.default.fbBytes = 1760 ∧
    confP6.ledBase 1 = 136 ∧ confP6.fbBytes = 5284 ∧ (confA 4 3).fbBytes = 147 := by decide
/-- V3: table A entry 1 is `pulse(0) ++ pulse(1)`. -/
theorem test_runs : runLengths (wireBits [0xF0#8, 0x0F#8, 0xF0#8]) = [(true, 4), (false, 8), (true, 8), (false, 4)] := by
  decide
/-- R35: accepted at an edge, the first of two writes of PACKRST in the next cycle, then completion. -/
theorem test_edge_accepts : coreOf (step { start with inputs := [.edge false true (encode .packrst) 0] }) =
    some (0b001#3, some (.reset 0 false), []) := by decide
theorem test_edge_works : coreOf (step { start with
      status := 0b001#3, seq := some (.reset 0 false), inputs := [.edge false true (encode .nop) 1] }) =
    some (0b001#3, some (.reset 1 false), [(0, 0x00#8)]) := by decide
theorem test_edge_completes : coreOf (step { start with
      status := 0b001#3, seq := some (.reset 1 false), inputs := [.edge false false (encode .nop) 3] }) =
    some (0b000#3, none, [(1, 0x00#8)]) := by decide
/-- R83, R84: reset abandons the operation; the pending transfer keeps what stood in `FB`. -/
theorem test_reset : coreOf (step { busy with inputs := [.edge true true (encode .packrst) 5] }) =
      some (0b000#3, none, []) ∧
    (nextOf (step { busy with inputs := [.edge true true (encode .packrst) 5] })).map State.xfer =
      some (some { next := 5, length := 26, held := [(0, 0x00#8), (5, 0x8E#8), (6, 0xE8#8)] }) := by decide
/-- V24. -/
theorem test_elapsed : elapsed 0x96#32 0x64#32 = 50 ∧ elapsed 0x20#32 0xFFFFFFD0#32 = 79 ∧
    elapsed 0x34#32 0xFFFFFFD0#32 = 99 ∧ fires Config.default 0x34#32 0xFFFFFFD0#32 = false ∧
    fires Config.default 0x35#32 0xFFFFFFD0#32 = true ∧ elapsed 0#32 0xFFFFFFFF#32 = 0 ∧
    elapsed 0xFFFFFFFF#32 0#32 = 4294967295 := by decide
/-- P6's trace: no tick at 199 after one at 100; the second at 203, with offset 1. -/
theorem test_poll : (nextOf (step { start with lastTs := 100#32, frameCounter := 1#32, inputs := [.poll 199#32 true] })).map
      State.inputs = some [] ∧
    (nextOf (step { start with lastTs := 100#32, frameCounter := 1#32, inputs := [.poll 203#32 true] })).map
      State.inputs = some [.command (encode (.build 1#32)), .transfer 26 true, .endTick 203#32 true] := by decide
/-- R73: a blocking transport reads the two bytes in order. -/
theorem test_transfer : (nextOf (step { ready with
      cfg := { confB 2 2 with blocking := true }
      fb := [(0, 0x00#8), (1, 0x8E#8), (2, 0xE8#8)], inputs := [.transfer 2 true] })).map
    (fun t => (t.wire, t.xfer)) = some ([0x00#8, 0x8E#8], none) := by decide
/-- U4: SUBMIT to a busy core under a blocking transport reads nothing yet and holds HOST in the call. -/
theorem test_transfer_busy : (nextOf (step { ticking true with
      status := 1#3, seq := some (.reset 0 false), inputs := [.transfer 2 true] })).map
    (fun t => (t.wire, t.inputs, t.fb)) = some ([], [.awaitTransfer], []) := by decide
/-- R73, R85(3): the transport gets the instance's constants, once. -/
theorem test_set_up : (nextOf (step { start with inputs := setUpTransport })).map State.busConfig =
      some (some { fSpi := 3200000, maxXfer := 1760 }) ∧
    refusalOf (step { ready with inputs := setUpTransport }) = some .transportAlreadySetUp := by decide
/-- A placed word runs in the very next step. -/
theorem test_placed : statusOf (step (State.reset.withFetchWord 72 0x70000000000000000)) = some 0b100#3 ∧
    (nextOf (step (State.reset.withFetchWord 72 0x10000000000000003))).map State.pat = some [0xEE#8] := by decide

/-! ## The hypotheses of every statement are met -/

/-- The invariant in a state with everything at work. -/
theorem witness_Inv_busy : Inv busy where
  config := by decide
  fbWf := by decide
  fbBelow := by decide
  cmWf := by decide
  cmBelow := by decide
  cmLow := by decide
  patLength := by decide
  patOutLength := by decide
  busySeq := by decide
  seqOk := fun q h => by
    obtain rfl : Sequencer.packLed 1 0x000001#32 11 25 = q := Option.some.inj h
    exact ⟨by decide, by decide, by decide, by decide, by decide⟩
  xferOk := fun x h => by
    obtain rfl : ({ next := 5, length := 26, held := [(6, 0xE8#8)] } : Transfer) = x := Option.some.inj h
    exact ⟨by decide, by decide, by decide, by decide⟩
  busOk := fun bus h => by cases h
  pinOk := fun pin h => by cases h

/-- The invariant in an idle state with both memories in use. -/
theorem witness_Inv_mapped : Inv { mapped with fb := [(3, 0xAA#8)] } where
  config := by decide
  fbWf := by decide
  fbBelow := by decide
  cmWf := by decide
  cmBelow := by decide
  cmLow := by decide
  patLength := by decide
  patOutLength := by decide
  busySeq := by decide
  seqOk := fun q h => by cases h
  xferOk := fun x h => by cases h
  busOk := fun bus h => by cases h
  pinOk := fun pin h => by cases h

/-- The whole instance P6, its transport set up. -/
def readyP6 : State :=
  { State.resetOf confP6 with busConfig := some { fSpi := 10000000, maxXfer := 5284 }, busPin := some 0 }

/-- The invariant there. -/
theorem witness_Inv_readyP6 : Inv readyP6 where
  config := by decide
  fbWf := by decide
  fbBelow := by decide
  cmWf := by decide
  cmBelow := by decide
  cmLow := by decide
  patLength := by decide
  patOutLength := by decide
  busySeq := by decide
  seqOk := fun q h => by cases h
  xferOk := fun x h => by cases h
  busOk := fun bus h => (Option.some.inj h).symm
  pinOk := fun pin h => (Option.some.inj h).symm

theorem witness_OperandFieldsOfEachOpcode : 0 < 2 ^ 67 ∧ 2 ^ 67 - 1 < 2 ^ 67 ∧ 2 ^ 67 ≤ 2 ^ 67 := by decide
theorem witness_UnusedOperandBitsIgnored : (0xFFFFFFFE#32).toNat % 4 = (2#32).toNat % 4 ∧
    (0xFF123456#32).toNat % 2 ^ 24 = (0x123456#32).toNat % 2 ^ 24 := by decide
theorem witness_StepRunsDecodedCommand : start.cfg.CoreOK ∧ busy.cfg.CoreOK ∧
    busyBit start.status = false ∧ start.xfer = none ∧ (decodeWord (encode (.enc 1#2))).writesFb = false ∧
    { busy with status := 0#3 }.xfer ≠ none ∧ busyBit { busy with status := 0#3 }.status = false ∧
    (decodeWord (encode .packrst)).writesFb = true := by decide
theorem witness_PlacedWordRunsNext : decodeTableWord 72 0x600000000FFFFFFFF = some (.build 0xFFFFFFFF#32) := by decide
theorem witness_StepKeepsInvariant :
    Inv busy ∧ (nextOf (step { busy with inputs := [.edge false false 0#67 1] })).isSome = true ∧
    Inv { mapped with fb := [(3, 0xAA#8)] } ∧
    (nextOf (step { mapped with fb := [(3, 0xAA#8)], inputs := [.command (encode .packfrm)] })).isSome = true :=
  ⟨witness_Inv_busy, by decide, witness_Inv_mapped, by decide⟩
theorem witness_InvariantAtReset : (confB 1 1).CoreOK ∧ confP6.CoreOK := by decide
theorem witness_ConfigurationConstant : (nextOf (step start)).isSome = true := by decide
theorem witness_OnlyWellFormedInstancesRun : ¬ (State.resetOf (confB 0 2)).cfg.CoreOK ∧
    ¬ { Config.default with intervalMs := 0 }.Buildable ∧ confP6.Buildable ∧
    ∃ t, Sys2Proof.core.run 2 { State.resetOf confP6 with inputs := [.command (encode (.enc 1#2))] } = .next t :=
  ⟨by decide, by decide, by decide, _, rfl⟩
theorem witness_IdleCoreKeepsState : start.cfg.CoreOK ∧ start.inputs = [] ∧ start.seq = none ∧ start.xfer = none := by decide
theorem witness_EncoderTotalAndDistinct : (confB 1 1).CoreOK ∧ (confA 4 3).CoreOK := by decide
theorem witness_PulseShaped : PulseShaped (confA 4 3) 4 8 ∧ PulseShaped (confB 2 2) 1 3 := by decide
theorem witness_DefaultTablesPulseShaped :
    (confA 4 3).E = 12 ∧ (confA 4 3).table = Config.tableA ∧ (confB 2 2).E = 4 ∧
    (confB 2 2).table = Config.tableB := by decide
theorem witness_PairIndexExtraction : 0 < 12 ∧ 11 < 12 := by decide
theorem witness_LayoutCoversBuffer : (confA 4 3).CoreOK ∧ (confA 4 3).resetBytes ≤ 3 ∧ 146 < (confA 4 3).fbBytes ∧
    3 < (confA 4 3).N ∧ 2 < (confA 4 3).patBytes ∧ (confA 4 3).ledBase 3 + (confA 4 3).patBytes * 11 + 2 = 146 := by
  decide
theorem witness_PackclrWritesPatterns : start.cfg.CoreOK ∧
    (14#32).toNat + start.cfg.bytesPerLed ≤ start.cfg.fbBytes ∧
    start.cfg.fbBytes < (15#32).toNat + start.cfg.bytesPerLed := by decide
theorem witness_PackclrLargestOffset : start.cfg.CoreOK ∧
    14#32 = BitVec.ofNat 32 (start.cfg.ledBase (start.cfg.N - 1)) ∧
    13 < start.cfg.ledBase (start.cfg.N - 1) ∧ start.cfg.fbBytes ≤ 26 ∧ 15#32 = BitVec.ofNat 32 (start.cfg.ledBase (start.cfg.N - 1) + 1) := by decide
theorem witness_PackclrWritesAscending : start.cfg.CoreOK ∧
    (14#32).toNat + start.cfg.bytesPerLed ≤ start.cfg.fbBytes ∧ 0 ≤ start.cfg.bytesPerLed ∧
    12 ≤ start.cfg.bytesPerLed := by decide
theorem witness_PackfrmWritesFrame : mapped.cfg.CoreOK ∧ memRead mapped.cm 1 = some 0x000001#32 ∧
    start.cfg.CoreOK ∧ memRead start.cm 1 = none := by decide
theorem witness_PackfrmIsPackrstThenPackclrs : mapped.cfg.CoreOK ∧
    ∀ j < mapped.cfg.N, memRead mapped.cm j = some (if j = 0 then 0x010000#32 else 0x000001#32) := by decide

/-- A frame of one LED of color `0x123456` (V6). -/
def framed : State :=
  { State.resetOf (confB 1 1) with
    fb := [(0, 0x00#8), (1, 0x88#8), (2, 0x8E#8), (3, 0x88#8), (4, 0xE8#8), (5, 0x88#8), (6, 0xEE#8), (7, 0x8E#8),
      (8, 0x88#8), (9, 0x8E#8), (10, 0x8E#8), (11, 0x8E#8), (12, 0xE8#8)] }

theorem witness_FrameDeterminesColors : framed.cfg.CoreOK ∧ FrameHolds framed (fun _ => 0x123456#32) ∧
    FrameHolds framed (fun _ => 0xFF123456#32) := by
  unfold FrameHolds
  decide
theorem witness_MapEntriesSingleChannel : (nextOf (exec (.updmap 2#32) start)).isSome = true ∧ 1 < start.cfg.N := by
  decide
theorem witness_FullRotationRestoresMap : (0xFFFFFFFF#32).toNat = (0xFFFFFFFD#32).toNat + start.cfg.N := by decide
theorem witness_OffsetMovesColorsDown : start.cfg.CoreOK ∧ (0xFFFFFFFF#32).toNat = (0xFFFFFFFE#32).toNat + 1 ∧
    (nextOf (exec (.updmap 0xFFFFFFFE#32) start)).isSome = true ∧
    (nextOf (exec (.updmap 0xFFFFFFFF#32) start)).isSome = true := by decide
theorem witness_BuildClosedForm : start.cfg.CoreOK ∧ busy.cfg.CoreOK := by decide
theorem witness_BuildForgetsHistory : Inv busy ∧ Inv { mapped with fb := [(3, 0xAA#8)] } ∧
    { mapped with fb := [(3, 0xAA#8)] }.cfg = busy.cfg ∧ (nextOf (exec (.build 3#32) busy)).isSome = true ∧
    (nextOf (exec (.build 3#32) { mapped with fb := [(3, 0xAA#8)] })).isSome = true :=
  ⟨witness_Inv_busy, witness_Inv_mapped, by decide, by decide, by decide⟩
theorem witness_ReservedOpcodeRecorded : (nextOf (exec .reserved7 mapped)).isSome = true ∧
    (nextOf (exec .packfrm mapped)).isSome = true := by decide
theorem witness_OperationFrame : (nextOf (exec (.enc 3#2) busy)).isSome = true ∧
    (nextOf (exec (.updmap 3#32) busy)).isSome = true ∧ (nextOf (exec .packfrm busy)).isSome = true := by decide
theorem witness_ErrorsOnlyAsTabled : (nextOf (exec (.packclr 15#32 0#32) start)).isSome = true ∧
    start.cfg.fbBytes < (15#32).toNat + start.cfg.bytesPerLed ∧ boundsBit start.status = false := by decide
theorem witness_ErrorBitsSticky : (nextOf (step { busy with inputs := [.xferRead] })).isSome = true ∧
    boundsBit busy.status = true ∧ rsvdBit busy.status = true := by decide
theorem witness_ErrorBitsNotRead : (nextOf (exec .packfrm { mapped with status := mapped.status ||| 0b110#3 })).isSome =
    true := by decide
theorem witness_OperationsIdempotent : Inv { mapped with fb := [(3, 0xAA#8)] } ∧
    MapWritten { mapped with fb := [(3, 0xAA#8)] } ∧
    (nextOf (exec .packfrm { mapped with fb := [(3, 0xAA#8)] })).isSome = true ∧
    (nextOf (exec (.packclr 15#32 0#32) { mapped with fb := [(3, 0xAA#8)] })).isSome = true := by
  refine ⟨witness_Inv_mapped, ?_, by decide, by decide⟩
  unfold MapWritten
  decide
theorem witness_SequencerRefinesOperation : mapped.cfg.CoreOK ∧ mapped.seq = none ∧
    (nextOf (exec (.build 1#32) mapped)).isSome = true := by decide
theorem witness_BusyUntilLastWrite : start.cfg.CoreOK ∧ 0 < writeCount start.cfg .nop ∧
    27 < writeCount start.cfg (.build 0#32) ∧ 25 < writeCount start.cfg .packfrm ∧
    11 < writeCount start.cfg (.packclr 14#32 0#32) := by decide
/-- A clause without a transfer, one with, one that submits. -/
theorem witness_BusyCoreDoesNotAccept : busy.cfg.CoreOK ∧ busyBit busy.status = true ∧
    { busy with xfer := none }.xfer = none ∧ busy.seq ≠ none ∧ busy.xfer ≠ none ∧
    busyBit { ready with status := 1#3, seq := busy.seq }.status = true ∧ ready.cfg.CoreOK ∧
    ready.busConfig = some { fSpi := 3200000, maxXfer := 26 } ∧ ready.busPin = some 7 ∧ ready.xfer = none ∧
    26 ≤ ready.cfg.fbBytes ∧ 1 ≤ 26 ∧ (ticking true).cfg.blocking = true := by decide
theorem witness_IdleCoreAcceptsAtEdge : start.cfg.CoreOK ∧ busyBit start.status = false := by decide
theorem witness_ResetWinsAtTheEdge : busy.cfg.CoreOK ∧ { busy with inputs := [.reset] }.inputs = [Event.reset] ∧
    { busy with inputs := [.edge true true 0#67 3] }.inputs = [Event.edge true true 0#67 3] := by decide
/-- Before an edge with `rst` and before the RESET action, with a byte of each kind. -/
theorem witness_ResetLeavesTransferItsBytes : Inv { busy with inputs := [.edge true true 0#67 3] } ∧
    Inv { busy with inputs := [.reset] } ∧ busy.xfer = some { next := 5, length := 26, held := [(6, 0xE8#8)] } ∧ memRead busy.fb 5 = some 0x8E#8 ∧
    memRead busy.fb 6 = none ∧ memRead [(6, 0xE8#8)] 6 = some 0xE8#8 ∧
    memRead busy.fb 25 = none ∧ memRead [(6, 0xE8#8)] 25 = none :=
  ⟨{ witness_Inv_busy with }, { witness_Inv_busy with }, by decide⟩
theorem witness_ReadPortsReturnContents : busy.cfg.CoreOK ∧ memRead busy.fb 5 = some 0x8E#8 ∧ 5 < busy.cfg.fbBytes ∧
    memRead busy.cm 1 = some 0x000001#32 ∧ 1 < busy.cfg.N ∧ { busy with patWritten := true }.patWritten = true ∧
    busy.cfg.fbBytes ≤ 26 ∧ busy.cfg.N ≤ 2 := by decide
theorem witness_UnwrittenReadsAreFreshDraws : start.cfg.CoreOK ∧ start.patWritten = false ∧ memRead start.fb 25 = none ∧ 25 < start.cfg.fbBytes ∧
    memRead start.cm 1 = none ∧ 1 < start.cfg.N := by decide
theorem witness_ElapsedFormula : (5#32).toNat ≤ (5#32).toNat ∧ (0#32).toNat < (0xFFFFFFFF#32).toNat ∧
    start.hostPhase = .idle ∧ start.cfg.intervalMs ≤ elapsed 100#32 start.lastTs ∧
    ¬ start.cfg.intervalMs ≤ elapsed 99#32 start.lastTs := by decide
theorem witness_PollBeforeIntervalDoesNothing : start.cfg.CoreOK ∧ elapsed 99#32 start.lastTs < start.cfg.intervalMs := by decide

theorem witness_TickSequence : (ticking false).cfg.CoreOK ∧ (ticking false).inputs = [.poll 100#32 true] ∧ (ticking false).hostPhase = .idle ∧
    (ticking false).cfg.intervalMs ≤ elapsed 100#32 (ticking false).lastTs ∧
    busyBit (ticking false).status = false ∧ (ticking false).xfer = none ∧ (ticking false).cfg.blocking = false ∧
    (ticking false).busConfig = some { fSpi := 3200000, maxXfer := 26 } ∧
    (ticking false).cfg.fbBytes ≤ 26 ∧ (ticking false).busPin.isSome = true := by decide
theorem witness_TickEmitsExactFrame : (ticking true).inputs = [.poll 100#32 true] ∧ (ticking true).cfg.CoreOK ∧
    (ticking true).hostPhase = .idle ∧ (ticking true).cfg.intervalMs ≤ elapsed 100#32 (ticking true).lastTs ∧
    busyBit (ticking true).status = false ∧ (ticking true).xfer = none ∧ (ticking true).cfg.blocking = true ∧
    (ticking true).busConfig = some { fSpi := 3200000, maxXfer := 26 } ∧ (ticking true).cfg.fbBytes ≤ 26 ∧
    (ticking true).busPin.isSome = true := by decide
theorem witness_TransferReadsInOrder :
    { framed with xfer := some { next := 0, length := 2, held := [] } }.xfer =
      some { next := 0, length := 2, held := [] } ∧ 0 < 2 ∧
    (∀ a < 2, memRead framed.fb a = some (if a = 0 then 0x00#8 else 0x88#8)) ∧
    framed.cfg.CoreOK ∧ framed.seq = none ∧ framed.inputs = [] ∧ framed.xfer = none ∧ busy.xfer ≠ none ∧
    { busy with status := 0b110#3, seq := none }.seq = none := by decide
theorem witness_FailedSubmission : start.cfg.CoreOK ∧ { start.cfg with errorPolicy := .skipTick false true }.CoreOK ∧
    start.cfg.errorPolicy = .ignoreResult ∧
    { start with cfg := { start.cfg with errorPolicy := .skipTick false true } }.cfg.errorPolicy =
      .skipTick false true := by decide
theorem witness_SubmissionStops : ready.cfg.CoreOK ∧ (confB 1 2).CoreOK ∧ start.cfg.CoreOK ∧ start.busConfig = none ∧
    ready.busConfig = some { fSpi := 3200000, maxXfer := 26 } ∧ ready.busPin = some 7 ∧ ready.xfer = none ∧
    26 < 27 ∧ { ready with xfer := busy.xfer }.xfer ≠ none ∧ 25 ≤ 26 ∧
    { ready with cfg := confB 1 2 }.cfg.fbBytes < 15 := by decide

theorem witness_TransportSetUpOnce : start.cfg.CoreOK ∧ start.busConfig = none ∧ start.busPin = none ∧
    ready.busConfig ≠ none ∧ ready.busPin ≠ none ∧ ready.xfer = none ∧ confP6.TimingOK ∧
    (nextOf (buildInstance confP6)).isSome = true := by decide
/-- The last clause, in a whole instance that has been set up: P6's. -/
theorem witness_TransportSetUpOnce_submit : Inv readyP6 ∧ readyP6.cfg.TimingOK ∧ readyP6.busConfig ≠ none ∧
    readyP6.busPin ≠ none ∧ readyP6.xfer = none :=
  ⟨witness_Inv_readyP6, by decide, by decide, by decide, by decide⟩
theorem witness_RebuildsLeaveCompleteFrame : start.cfg.CoreOK ∧ framed.cfg.CoreOK ∧
    FrameHolds framed (fun _ => 0x123456#32) ∧ 0 < framed.cfg.N ∧
    (nextOf (exec (.packclr (BitVec.ofNat 32 (framed.cfg.ledBase 0)) 5#32) framed)).isSome = true ∧
    (nextOf (execAll [.packrst, .packclr 2#32 0#32, .packclr 14#32 0#32] start)).isSome = true ∧
    start.cfg.ledBase 0 = 2 ∧ start.cfg.ledBase 1 = 14 ∧ (nextOf (exec (.build 7#32) ready)).isSome = true ∧
    ready.xfer = none ∧ ready.busConfig = some { fSpi := ready.cfg.fSpi, maxXfer := ready.cfg.maxXfer } ∧
    ready.busPin = some ready.cfg.pin := by
  unfold FrameHolds
  decide

/-- A complete frame and a transport that is set up: SUBMIT is dutiful, here in an instance whose whole buffer is the
largest transfer. -/
theorem witness_EventDuty_transfer : EventDuty (.transfer 13 true)
    { framed with
      cfg := { framed.cfg with maxXfer := 13, pin := 7 }
      busConfig := some { fSpi := 3200000, maxXfer := 13 }, busPin := some 7 } := by
  refine ⟨by decide, by decide, ⟨fun _ => 0x123456#32, ?_⟩, by decide, by decide, by decide⟩
  unfold FrameHolds
  decide
theorem witness_DutifulHostNeverStops : State.reset.cfg.OK ∧
    EventDuty .configure State.reset ∧ EventDuty .beginPins State.reset :=
  ⟨by decide, rfl, rfl⟩
/-- PACKFRM with the map written and no transfer pending, as a command and at an edge. -/
theorem witness_EventDuty_command : EventDuty (.command (encode .packfrm)) mapped ∧
    EventDuty (.edge false true (encode .packfrm) 0) mapped := by
  have duty : CommandDuty (decodeWord (encode .packfrm)) mapped := by
    refine ⟨fun _ => by decide, fun _ => ?_⟩
    unfold MapWritten
    decide
  exact ⟨⟨fun _ h => (by cases h), duty⟩, fun _ h => (by cases h), fun h => (by cases h), fun _ _ _ => duty⟩
/-- R90: a command offered to a busy core and held; changing it, or dropping it, is no dutiful edge. -/
theorem test_held_command : (nextOf (step { busy with inputs := [.edge false true (encode .nop) 0] })).map State.offered =
      some (some (encode .nop)) ∧
    (nextOf (step { start with offered := some (encode .nop), inputs := [.edge false true (encode .nop) 0] })).map
      State.offered = some none ∧
    EventDuty (.edge false true (encode .nop) 0) { busy with offered := some (encode .nop) } ∧
    ¬ EventDuty (.edge false true (encode .packfrm) 0) { busy with offered := some (encode .nop) } ∧
    ¬ EventDuty (.edge false false (encode .nop) 0) { busy with offered := some (encode .nop) } := by
  refine ⟨by decide, by decide, ⟨fun _ h => Option.some.inj h, fun _ => rfl, fun _ _ h => ?_⟩, fun h => ?_, fun h => ?_⟩
  · exact absurd h (by decide)
  · exact absurd (h.1 _ rfl) (by decide)
  · exact absurd (h.2.1 rfl) (by decide)
/-- The duty clause of BusyCoreDoesNotAccept: a state after an edge at which a busy core was offered a command, and a
dutiful next edge. -/
theorem witness_BusyCoreDoesNotAccept_held : ∃ t,
    step { busy with inputs := [.edge false true (encode .nop) 0] } = .next t ∧
    EventDuty (.edge false true (encode .nop) 0) t :=
  ⟨{ busy with inputs := [], cmdDone := false, offered := some (encode .nop) }, by rfl,
    fun _ h => Option.some.inj h, fun _ => rfl, fun _ _ h => absurd h (by decide)⟩
/-- The read ports at the last address and index, and the actions with no duty. -/
theorem witness_EventDuty_others : EventDuty (.readFb 25) start ∧ EventDuty (.readCm 1) start ∧
    EventDuty .readPat start ∧ EventDuty .reset busy ∧ EventDuty (.poll 0#32 true) busy :=
  ⟨by unfold EventDuty; decide, by unfold EventDuty; decide, by unfold EventDuty; decide, trivial, trivial⟩

end Sys2Proof.Tests
end

section
/-! SUPPORT. The statements of spec/00_scope.md: one LED's waveform carries its color (R12), the sequencer refines the
operation level (R6), and only well-formed configurations run (R7, R9). -/

namespace Sys2Proof.Machine

/-! ## The waveform of one LED: a train of pulses, one for each bit of the color -/

/-- The bit stream of the logical bits `bs`: one pulse for each (spec/40_symbol_encoder.md R43(d)). -/
def pulseTrain (E h0 h1 : Nat) (bs : List Bool) : List Bool := bs.flatMap fun b => pulse E (highRun h0 h1 b)

theorem pulseTrain_cons (E h0 h1 : Nat) (b : Bool) (bs : List Bool) :
    pulseTrain E h0 h1 (b :: bs) = pulse E (highRun h0 h1 b) ++ pulseTrain E h0 h1 bs := rfl

/-- The bits of a color as the twelve index pairs (spec/30_encoding.md R37). -/
theorem colorBits_eq_pairs (color : Word) :
    colorBits color = (List.range 12).flatMap fun k => [color.getLsbD (23 - 2 * k), color.getLsbD (22 - 2 * k)] := rfl

/-- The stream of pieces sent one after another (spec/00_scope.md R12). -/
theorem wireBits_flatMap (l : List Nat) (f : Nat → List Byte) :
    wireBits (l.flatMap f) = l.flatMap fun k => wireBits (f k) := List.flatMap_assoc

section PulseShaped

variable {c : Config} {h0 h1 : Nat} (hp : PulseShaped c h0 h1)
include hp

/-- Pattern `k` of an LED is the pulses of the two color bits of pair `k`. -/
theorem wireBits_pattern (color : Word) {k : Nat} (hk : k < 12) :
    wireBits (symbolEncoder c (pairIndex color k)) =
      pulseTrain c.E h0 h1 [color.getLsbD (23 - 2 * k), color.getLsbD (22 - 2 * k)] := by
  obtain ⟨-, -, -, shape⟩ := hp
  obtain ⟨high, low⟩ := pairIndex_getLsbD color hk
  rw [shape, high, low]
  simp [pulseTrain]

/-- The stream of one LED is the pulse train of its color. -/
theorem wireBits_ledBytes (color : Word) :
    wireBits (ledBytes c color) = pulseTrain c.E h0 h1 (colorBits color) := by
  rw [ledBytes, wireBits_flatMap, colorBits_eq_pairs, pulseTrain, List.flatMap_assoc]
  exact List.flatMap_congr fun k hk => wireBits_pattern hp color (List.mem_range.mp hk)

theorem pulseTrain_head (bs : List Bool) : ∀ x, (pulseTrain c.E h0 h1 bs).head? = some x → x = true := by
  cases bs with
  | nil => simp [pulseTrain]
  | cons b bs => exact pulse_head (highRun_bounds hp b).1 _

/-- The high run of a pulse tells its bit: only a 1 has the long one. -/
theorem decide_highRun_eq (b : Bool) : decide (highRun h0 h1 b = h1) = b := by
  obtain ⟨-, hlt, -, -⟩ := hp
  cases b <;> simp [highRun, hlt.ne]

/-- Measuring run lengths gives the bits of a pulse train back (spec/40_symbol_encoder.md R46(b)). -/
theorem logicalBits_pulseTrain (bs : List Bool) : logicalBits h1 (runLengths (pulseTrain c.E h0 h1 bs)) = bs := by
  induction bs with
  | nil => rfl
  | cons b bs ih =>
    obtain ⟨hpos, hlt⟩ := highRun_bounds hp b
    rw [pulseTrain_cons, runLengths_pulse hpos hlt (pulseTrain_head hp bs), logicalBits, decide_highRun_eq hp, ih]

theorem pulse_getLast? (b : Bool) : (pulse c.E (highRun h0 h1 b)).getLast? = some false := by
  obtain ⟨hpos, hlt⟩ := highRun_bounds hp b
  have low : c.E - highRun h0 h1 b ≠ 0 := by omega
  simp [pulse, List.getLast?_append, List.getLast?_replicate, low]

/-- A pulse train ends low (spec/70_reset_and_hazards.md R97). -/
theorem pulseTrain_getLast? {bs : List Bool} (hbs : bs ≠ []) :
    (pulseTrain c.E h0 h1 bs).getLast? = some false := by
  obtain ⟨first, last, rfl⟩ := (List.eq_nil_or_concat' bs).resolve_left hbs
  simp [pulseTrain, List.getLast?_append, pulse_getLast? hp last]

end PulseShaped

/-! ## The sequencer against the operation level -/

theorem effect_seq (i : Instr) (s : State) : (effect i s).seq = s.seq := by
  rw [effect_outside]

theorem finishSequencer_idle {s : State} (h : s.seq = none) : finishSequencer s = complete s := by
  rw [finishSequencer, ← h]

/-- After its writes the sequencer has carried out the operation's effect and gone idle, whatever it was doing when the
operation was accepted. -/
theorem sequencer_effect (i : Instr) {s : State} (hc : s.cfg.CoreOK) :
    repeatOp microStep (writeCount s.cfg i) (startOperation i s) = finishSequencer (effect i (accept s)) := by
  have ⟨_, _, _, hN, hreset, _⟩ := hc
  cases i with
  | nop => rfl
  | enc sym => rfl
  | packrst => exact resetPhase_end (s := accept s) false hreset
  | packclr off color =>
    by_cases fits : fitsBuffer s.cfg off.toNat = true
    · simp only [writeCount, startOperation, effect, packColor, accept_cfg, fits, ↓reduceIte]
      exact packClrPhase_end (s := accept s) hc off.toNat color
    · simp only [writeCount, startOperation, effect, packColor, accept_cfg, fits]
      rfl
  | updmap offset => exact mapPhase_end (s := accept s) offset false hN
  | packfrm => exact framePhases (s := accept s) hc
  | build offset =>
    rw [writeCount, repeatOp_add]
    have map : repeatOp microStep s.cfg.N (startOperation (.build offset) s) =
        { updateMap offset (accept s) with seq := some (.reset 0 true) } :=
      mapPhase_end (s := accept s) offset true hN
    rw [map]
    exact framePhases (s := updateMap offset (accept s)) hc
  | reserved7 => rfl

/-! ## What every step keeps -/

theorem startTransfer_cfg (n : Nat) (s : State) : (startTransfer n s).cfg = s.cfg :=
  (startTransfer_onlyTransfer n s).cfg

theorem transferCall_cfg {length : Nat} {ok : Bool} {s t : State} (h : transferCall length ok s = .next t) :
    t.cfg = s.cfg := by
  rcases transferCall_next h with ⟨-, rfl⟩ | ⟨-, -, -, rfl⟩
  · rfl
  · exact startTransfer_cfg length s

theorem Inv.afterTransferCall {length : Nat} {ok : Bool} {s t : State} (h : Inv s)
    (e : transferCall length ok s = .next t) : Inv t := by
  rcases transferCall_next e with ⟨-, rfl⟩ | ⟨-, -, fits, rfl⟩
  · exact h
  · exact h.afterStartTransfer fits

theorem issueCommand_cfg {w : CmdWord} {s t : State} (h : issueCommand w s = .next t) : t.cfg = s.cfg := by
  rcases issueCommand_next h with ⟨-, run⟩ | ⟨-, rfl⟩ | ⟨-, rfl⟩
  · exact (exec_onlyCore run).cfg
  · exact (startOperation_onlyCore _ (holdPort none s)).cfg
  · exact quiet_cfg _

theorem Inv.afterIssueCommand {w : CmdWord} {s t : State} (h : Inv s) (e : issueCommand w s = .next t) : Inv t := by
  rcases issueCommand_next e with ⟨idle, run⟩ | ⟨-, rfl⟩ | ⟨-, rfl⟩
  · exact (h.afterHoldPort none).afterExec idle run
  · exact ((h.afterHoldPort none).afterStartOperation _).withInputs _
  · exact ((h.afterHoldPort (some w)).withInputs _).afterQuiet

theorem clockEdge_cfg (rst valid : Bool) (i : Instr) (work : Nat) (s : State) :
    (clockEdge rst valid i work s).cfg = s.cfg := by
  rcases clockEdge_cases rst valid i work s with ⟨-, e⟩ | ⟨-, -, -, e⟩ | ⟨-, -, -, e⟩ | ⟨-, -, e⟩ <;> rw [e]
  · rfl
  · exact (startOperation_onlyCore i s).cfg
  · exact (repeatOp_microStep_onlyCore work s).cfg

theorem Inv.afterClockEdge {s : State} (h : Inv s) (rst valid : Bool) (i : Instr) (work : Nat) :
    Inv (clockEdge rst valid i work s) := by
  rcases clockEdge_cases rst valid i work s with ⟨-, e⟩ | ⟨-, -, -, e⟩ | ⟨-, -, -, e⟩ | ⟨-, -, e⟩ <;> rw [e]
  · exact h.afterResetCore
  · exact h.afterStartOperation i
  · exact h
  · exact repeatOp_keeps (P := Inv) (fun _ ht => ht.afterMicroStep) work h

/-- HOST waiting for the core: over when it is ready, else what goes on goes on. -/
theorem awaitReady_cases (s : State) :
    (busyBit s.status = false ∧ awaitReady s = s) ∨
    (busyBit s.status = true ∧ awaitReady s = quiet { s with inputs := .await :: s.inputs }) := by
  cases hb : busyBit s.status <;> simp [awaitReady, cmdReady, hb]

theorem awaitReady_cfg (s : State) : (awaitReady s).cfg = s.cfg := by
  rcases awaitReady_cases s with ⟨-, e⟩ | ⟨-, e⟩ <;> rw [e]
  exact quiet_cfg _

theorem Inv.afterAwaitReady {s : State} (h : Inv s) : Inv (awaitReady s) := by
  rcases awaitReady_cases s with ⟨-, e⟩ | ⟨-, e⟩ <;> rw [e]
  exacts [h, (h.withInputs _).afterQuiet]

theorem awaitTransferEnd_cfg (s : State) : (awaitTransferEnd s).cfg = s.cfg := by
  rcases awaitTransferEnd_cases s with ⟨-, e⟩ | ⟨-, e⟩ <;> rw [e]
  exact quiet_cfg _

theorem Inv.afterAwaitTransferEnd {s : State} (h : Inv s) : Inv (awaitTransferEnd s) := by
  rcases awaitTransferEnd_cases s with ⟨-, e⟩ | ⟨-, e⟩ <;> rw [e]
  exacts [h, (h.withInputs _).afterQuiet]

/-- A read of `FB` answers only at an address that exists (spec/10_state.md R19). -/
theorem hostReadFb_next {a : Nat} {s t : State} (h : hostReadFb a s = .next t) :
    a < s.cfg.fbBytes ∧ t = { useDraws 1 s with fbRdata := fbByte s.fb a s.draws } := by
  unfold hostReadFb at h
  split at h
  · exact ⟨by assumption, (Host.Outcome.next.inj h).symm⟩
  · cases h

/-- A read of `CM` answers only at an index that exists (spec/10_state.md R18). -/
theorem hostReadCm_next {i : Nat} {s t : State} (h : hostReadCm i s = .next t) :
    i < s.cfg.N ∧ t = { useDraws 1 s with cmRdata := cmEntry s.cm i s.draws } := by
  unfold hostReadCm at h
  split at h
  · exact ⟨by assumption, (Host.Outcome.next.inj h).symm⟩
  · cases h

theorem patBytesRead_length {s : State} (h : s.pat.length = s.cfg.patBytes) (draw : Nat) :
    (patBytesRead s draw).length = s.cfg.patBytes := by
  unfold patBytesRead
  split
  · exact h
  · simp

theorem Inv.afterHostReadPat {s : State} (h : Inv s) : Inv (hostReadPat s) :=
  { h with patOutLength := patBytesRead_length h.patLength _ }

/-- A poll changes HOST's phase and what HOST does next, nothing else (spec/60_exceptions.md R76, R77). -/
theorem pollScheduler_outside (now : BitVec 32) (ok : Bool) (s : State) :
    pollScheduler now ok s = { s with
      hostPhase := (pollScheduler now ok s).hostPhase, inputs := (pollScheduler now ok s).inputs } := by
  unfold pollScheduler
  split <;> rfl

/-- The end of a tick changes HOST's clock and phase, nothing else (spec/60_exceptions.md R76, R78). -/
theorem endTick_outside (now : BitVec 32) (ok : Bool) (s : State) :
    endTick now ok s = { s with
      lastTs := (endTick now ok s).lastTs, frameCounter := (endTick now ok s).frameCounter
      hostPhase := (endTick now ok s).hostPhase } := by
  unfold endTick
  split <;> rfl

theorem pollScheduler_cfg (now : BitVec 32) (ok : Bool) (s : State) : (pollScheduler now ok s).cfg = s.cfg := by
  rw [pollScheduler_outside]

theorem endTick_cfg (now : BitVec 32) (ok : Bool) (s : State) : (endTick now ok s).cfg = s.cfg := by
  rw [endTick_outside]

theorem Inv.afterPollScheduler {s : State} (h : Inv s) (now : BitVec 32) (ok : Bool) :
    Inv (pollScheduler now ok s) := by
  rw [pollScheduler_outside]
  exact { h with }

theorem Inv.afterEndTick {s : State} (h : Inv s) (now : BitVec 32) (ok : Bool) : Inv (endTick now ok s) := by
  rw [endTick_outside]
  exact { h with }

/-- No event changes a parameter (spec/10_state.md R17). -/
theorem handleEvent_cfg {e : Event} {s t : State} (h : handleEvent e s = .next t) : t.cfg = s.cfg := by
  cases e with
  | command w => exact issueCommand_cfg h
  | readFb a => obtain ⟨-, rfl⟩ := hostReadFb_next h; rfl
  | readCm i => obtain ⟨-, rfl⟩ := hostReadCm_next h; rfl
  | configure => obtain ⟨-, rfl⟩ := configureCall_next h; rfl
  | beginPins => obtain ⟨-, rfl⟩ := beginCall_next h; rfl
  | transfer length ok => exact transferCall_cfg h
  | edge rst valid cmd work => cases h; exact clockEdge_cfg _ _ _ _ _
  | reset => cases h; rfl
  | await => cases h; exact awaitReady_cfg s
  | readPat => cases h; rfl
  | awaitTransfer => cases h; exact awaitTransferEnd_cfg s
  | xferRead => cases h; exact (xferRead_onlyTransfer s).cfg
  | poll now ok => cases h; exact pollScheduler_cfg now ok s
  | endTick now ok => cases h; exact endTick_cfg now ok s

/-- Every event keeps the machine invariant. -/
theorem Inv.afterHandleEvent {e : Event} {s t : State} (hi : Inv s) (h : handleEvent e s = .next t) : Inv t := by
  cases e with
  | command w => exact hi.afterIssueCommand h
  | readFb a => obtain ⟨-, rfl⟩ := hostReadFb_next h; exact { hi with }
  | readCm i => obtain ⟨-, rfl⟩ := hostReadCm_next h; exact { hi with }
  | configure => exact hi.afterConfigureCall h
  | beginPins => exact hi.afterBeginCall h
  | transfer length ok => exact hi.afterTransferCall h
  | edge rst valid cmd work => cases h; exact (hi.afterHoldPort _).afterClockEdge _ _ _ _
  | reset => cases h; exact hi.afterResetCore
  | await => cases h; exact hi.afterAwaitReady
  | readPat => cases h; exact hi.afterHostReadPat
  | awaitTransfer => cases h; exact hi.afterAwaitTransferEnd
  | xferRead => cases h; exact hi.afterXferRead
  | poll now ok => cases h; exact hi.afterPollScheduler now ok
  | endTick now ok => cases h; exact hi.afterEndTick now ok

theorem step_cfg {s t : State} (h : step s = .next t) : t.cfg = s.cfg := by
  rcases step_next h with ⟨-, rfl⟩ | ⟨e, rest, -, he⟩
  · exact quiet_cfg _
  · exact (handleEvent_cfg he).trans (takeEvent_cfg s rest)

theorem Inv.afterStep {s t : State} (hi : Inv s) (h : step s = .next t) : Inv t := by
  rcases step_next h with ⟨-, rfl⟩ | ⟨e, rest, -, he⟩
  · exact (hi.afterTakeEvent []).afterQuiet
  · exact (hi.afterTakeEvent rest).afterHandleEvent he

/-- What every step keeps holds after every run. -/
theorem run_keeps {M : Host.Core} {P : M.State → Prop} (hstep : ∀ s t, P s → M.step s = .next t → P t)
    {n : Nat} {s t : M.State} (hs : P s) (h : M.run n s = .next t) : P t := by
  induction n generalizing s with
  | zero => cases h; exact hs
  | succ n ih =>
    rw [Host.Core.run] at h
    split at h
    · exact ih (hstep _ _ hs (by assumption)) h
    · cases h
    · cases h

theorem inv_resetOf {c : Config} (hc : c.CoreOK) : Inv (State.resetOf c) where
  config := hc
  fbWf := wf_nil
  fbBelow := by simp [State.resetOf]
  cmWf := wf_nil
  cmBelow := by simp [State.resetOf]
  cmLow := by simp [State.resetOf]
  patLength := List.length_replicate
  patOutLength := List.length_replicate
  busySeq := by simp [State.resetOf, busyBit]
  seqOk := by simp [State.resetOf]
  xferOk := by simp [State.resetOf]
  busOk := by simp [State.resetOf]
  pinOk := by simp [State.resetOf]

/-- Every state that is reached from the reset of a well-formed configuration, whatever actions follow. -/
theorem run_resetOf {c : Config} (hc : c.CoreOK) {l : List Event} {n : Nat} {t : State}
    (h : Sys2Proof.core.run n { State.resetOf c with inputs := l } = .next t) : t.cfg = c ∧ Inv t :=
  run_keeps (M := Sys2Proof.core) (P := fun u : State => u.cfg = c ∧ Inv u)
    (fun _ _ ⟨hcfg, hi⟩ hstep => ⟨(step_cfg hstep).trans hcfg, hi.afterStep hstep⟩)
    ⟨rfl, (inv_resetOf hc).withInputs l⟩ h

end Sys2Proof.Machine

/-! ## The statements -/

namespace Sys2Proof

open Sys2Proof.Machine

/-- Settles O15: the stream is a train of one pulse for each color bit, and run lengths read such a train back. -/
theorem waveformCarriesColor : Obligations.WaveformCarriesColor := by
  intro c h0 h1 hp color
  rw [wireBits_ledBytes hp]
  exact ⟨logicalBits_pulseTrain hp _, pulseTrain_getLast? hp (by simp [colorBits])⟩

/-- Settles O40, through the sequencer's phases: they leave the operation's effect and an idle sequencer. -/
theorem sequencerRefinesOperation : Obligations.SequencerRefinesOperation := by
  intro i s hc idle
  have idle' : (effect i (accept s)).seq = none := by rw [effect_seq, accept_seq, idle]
  rw [sequencer_effect i hc, finishSequencer_idle idle', exec_eq]

/-- Settles O58, by induction on the run: every step keeps the configuration and the machine invariant. -/
theorem onlyWellFormedInstancesRun : Obligations.OnlyWellFormedInstancesRun := by
  refine ⟨fun s hc => step_illFormed hc, fun c hc => if_neg hc, fun c hc => ⟨if_pos hc, fun l n t h => ?_⟩⟩
  obtain ⟨⟨hcore, -⟩, -⟩ := hc
  exact run_resetOf hcore h

end Sys2Proof
end

section
/-! SUPPORT. The statements of spec/10_state.md: what every step keeps (R16 to R21), the reset values (R23), the read
ports (R14, R18, R19, R24). -/

namespace Sys2Proof.Machine

/-! ## The error bits through a step (spec/10_state.md R16, spec/60_exceptions.md R67) -/

/-- Every error bit set in the first STATUS is set in the second. -/
structure ErrorsKept (st st' : BitVec 3) : Prop where
  bounds : boundsBit st = true → boundsBit st' = true
  rsvd : rsvdBit st = true → rsvdBit st' = true

theorem ErrorsKept.refl (st : BitVec 3) : ErrorsKept st st := ⟨id, id⟩

theorem ErrorsKept.of_eq {st st' : BitVec 3} (h : st' = st) : ErrorsKept st st' := h ▸ .refl st

theorem ErrorsKept.trans {st st' st'' : BitVec 3} (h : ErrorsKept st st') (h' : ErrorsKept st' st'') :
    ErrorsKept st st'' :=
  ⟨h'.bounds ∘ h.bounds, h'.rsvd ∘ h.rsvd⟩

theorem errorsKept_setError (e : CoreError) (st : BitVec 3) : ErrorsKept st (setError e st) :=
  have ⟨_, _, bounds, rsvd⟩ := errBits_kept st e
  ⟨bounds, rsvd⟩

theorem errorsKept_setBusy (st : BitVec 3) : ErrorsKept st (setBusy st) :=
  have ⟨⟨bounds, rsvd⟩, _⟩ := errBits_kept st (.bounds 0)
  ⟨bounds.trans, rsvd.trans⟩

theorem errorsKept_clearBusy (st : BitVec 3) : ErrorsKept st (clearBusy st) :=
  have ⟨_, ⟨bounds, rsvd⟩, _⟩ := errBits_kept st (.bounds 0)
  ⟨bounds.trans, rsvd.trans⟩

/-- An effect leaves STATUS as it was, or takes one error (spec/60_exceptions.md R64). -/
theorem effect_status_cases (i : Instr) (s : State) :
    (effect i s).status = s.status ∨ ∃ e, (effect i s).status = setError e s.status := by
  cases i with
  | packclr off color =>
    rcases packColor_cases off.toNat color s with ⟨-, h⟩ | ⟨-, h⟩
    · exact .inl (by rw [effect, h]; rfl)
    · exact .inr ⟨.bounds off.toNat, by rw [effect, h]; rfl⟩
  | reserved7 => exact .inr ⟨.reservedOp 7#3, rfl⟩
  | _ => exact .inl rfl

/-- Acceptance sets BUSY, and takes the error where the operation has one. -/
theorem startOperation_status_cases (i : Instr) (s : State) :
    (startOperation i s).status = setBusy s.status ∨
    ∃ e, (startOperation i s).status = setError e (setBusy s.status) := by
  cases i with
  | packclr off color =>
    simp only [startOperation]
    split
    · exact .inl rfl
    · exact .inr ⟨.bounds off.toNat, rfl⟩
  | reserved7 => exact .inr ⟨.reservedOp 7#3, rfl⟩
  | _ => exact .inl rfl

theorem startLed_status_cases (j : Nat) (s : State) :
    (startLed j s).status = s.status ∨ (startLed j s).status = clearBusy s.status := by
  unfold startLed
  split
  · exact .inl rfl
  · exact .inr rfl

/-- A write of the sequencer leaves STATUS as it was, or ends the operation (spec/30_encoding.md R35). -/
theorem microStep_status_cases (s : State) :
    (microStep s).status = s.status ∨ (microStep s).status = clearBusy s.status := by
  unfold microStep
  split
  · exact .inl rfl
  · exact .inr rfl
  · exact .inr rfl
  · dsimp only
    split
    · exact .inl rfl
    · split
      · exact .inl rfl
      · exact .inr rfl
  · dsimp only
    split
    · exact .inl rfl
    · split
      · exact startLed_status_cases 0 _
      · exact .inr rfl
  · dsimp only
    split
    · exact .inl rfl
    · exact .inr rfl
  · dsimp only
    split
    · exact .inl rfl
    · exact startLed_status_cases _ _

theorem exec_errorsKept {i : Instr} {s t : State} (h : exec i s = .next t) : ErrorsKept s.status t.status := by
  rw [exec_next h]
  refine .trans ?_ (errorsKept_clearBusy _)
  rcases effect_status_cases i s with e | ⟨err, e⟩ <;> rw [e]
  exacts [.refl _, errorsKept_setError err _]

theorem startOperation_errorsKept (i : Instr) (s : State) : ErrorsKept s.status (startOperation i s).status := by
  refine (errorsKept_setBusy s.status).trans ?_
  rcases startOperation_status_cases i s with e | ⟨err, e⟩ <;> rw [e]
  exacts [.refl _, errorsKept_setError err _]

theorem microStep_errorsKept (s : State) : ErrorsKept s.status (microStep s).status := by
  rcases microStep_status_cases s with e | e <;> rw [e]
  exacts [.refl _, errorsKept_clearBusy _]

theorem xferRead_errorsKept (s : State) : ErrorsKept s.status (xferRead s).status :=
  .of_eq (xferRead_onlyTransfer s).status

theorem quiet_errorsKept (s : State) : ErrorsKept s.status (quiet s).status := by
  rcases quiet_cases s with ⟨u, rfl | rfl, -, e⟩ | ⟨u, rfl | rfl, -, e⟩ | ⟨-, -, e⟩ <;> rw [e]
  exacts [microStep_errorsKept _, microStep_errorsKept (useDraws 1 _), xferRead_errorsKept _,
    xferRead_errorsKept (useDraws 1 _), .refl _]

theorem issueCommand_errorsKept {w : CmdWord} {s t : State} (h : issueCommand w s = .next t) :
    ErrorsKept s.status t.status := by
  rcases issueCommand_next h with ⟨-, run⟩ | ⟨-, rfl⟩ | ⟨-, rfl⟩
  · exact exec_errorsKept (s := holdPort none s) run
  · exact startOperation_errorsKept _ (holdPort none s)
  · exact quiet_errorsKept { holdPort (some w) s with inputs := .command w :: s.inputs }

/-- An edge without `rst`. -/
theorem clockEdge_errorsKept (valid : Bool) (i : Instr) (work : Nat) (s : State) :
    ErrorsKept s.status (clockEdge false valid i work s).status := by
  rcases clockEdge_cases false valid i work s with ⟨rst, -⟩ | ⟨-, -, -, e⟩ | ⟨-, -, -, e⟩ | ⟨-, -, e⟩
  · cases rst
  all_goals rw [e]
  · exact startOperation_errorsKept i s
  · exact .refl _
  · exact repeatOp_keeps (P := fun u : State => ErrorsKept s.status u.status)
      (fun u h => h.trans (microStep_errorsKept u)) work (.refl _)

theorem awaitReady_errorsKept (s : State) : ErrorsKept s.status (awaitReady s).status := by
  rcases awaitReady_cases s with ⟨-, e⟩ | ⟨-, e⟩ <;> rw [e]
  exacts [.refl _, quiet_errorsKept { s with inputs := .await :: s.inputs }]

theorem awaitTransferEnd_errorsKept (s : State) : ErrorsKept s.status (awaitTransferEnd s).status := by
  rcases awaitTransferEnd_cases s with ⟨-, e⟩ | ⟨-, e⟩ <;> rw [e]
  exacts [.refl _, quiet_errorsKept { s with inputs := .awaitTransfer :: s.inputs }]

theorem transferCall_status {length : Nat} {ok : Bool} {s t : State} (h : transferCall length ok s = .next t) :
    t.status = s.status := by
  rcases transferCall_next h with ⟨-, rfl⟩ | ⟨-, -, -, rfl⟩
  · rfl
  · exact (startTransfer_onlyTransfer length s).status

theorem pollScheduler_status (now : BitVec 32) (ok : Bool) (s : State) :
    (pollScheduler now ok s).status = s.status := by
  rw [pollScheduler_outside]

theorem endTick_status (now : BitVec 32) (ok : Bool) (s : State) : (endTick now ok s).status = s.status := by
  rw [endTick_outside]

/-- No event but a reset clears an error bit (spec/60_exceptions.md R67, R71). -/
theorem handleEvent_errorsKept {e : Event} {s t : State} (h : handleEvent e s = .next t)
    (noReset : e ≠ .reset) (noRst : ∀ v w n, e ≠ .edge true v w n) : ErrorsKept s.status t.status := by
  cases e with
  | command w => exact issueCommand_errorsKept h
  | edge rst valid cmd work =>
    cases rst with
    | true => exact absurd rfl (noRst valid cmd work)
    | false => cases h; exact clockEdge_errorsKept valid _ work (holdPort (leftOnPort false valid cmd s.status) s)
  | reset => exact absurd rfl noReset
  | await => cases h; exact awaitReady_errorsKept s
  | readFb a => obtain ⟨-, rfl⟩ := hostReadFb_next h; exact .refl _
  | readCm i => obtain ⟨-, rfl⟩ := hostReadCm_next h; exact .refl _
  | readPat => cases h; exact .refl _
  | configure => obtain ⟨-, rfl⟩ := configureCall_next h; exact .refl _
  | beginPins => obtain ⟨-, rfl⟩ := beginCall_next h; exact .refl _
  | transfer length ok => exact .of_eq (transferCall_status h)
  | awaitTransfer => cases h; exact awaitTransferEnd_errorsKept s
  | xferRead => cases h; exact xferRead_errorsKept s
  | poll now ok => cases h; exact .of_eq (pollScheduler_status now ok s)
  | endTick now ok => cases h; exact .of_eq (endTick_status now ok s)

/-! ## Operations do not read the error bits (spec/10_state.md R16) -/

theorem setError_or (err : CoreError) (st e : BitVec 3) : setError err (st ||| e) = setError err st ||| e := by
  cases err <;> (simp only [setError]; ac_rfl)

theorem clearBusy_or (st e : BitVec 3) : clearBusy (st ||| e) = clearBusy st ||| (e &&& 0b110#3) :=
  BitVec.and_or_distrib_right ..

/-- STATUS bits set before an effect stay set, and the effect does the same. -/
theorem effect_orStatus (i : Instr) (e : BitVec 3) (s : State) :
    effect i { s with status := s.status ||| e } = { effect i s with status := (effect i s).status ||| e } := by
  cases i with
  | packclr off color =>
    by_cases fits : fitsBuffer s.cfg off.toNat = true
    · simp [effect, packColor, fits, packPatterns]
    · simp [effect, packColor, fits, raiseError, setError_or]
  | reserved7 => simp [effect, raiseError, setError_or]
  | _ => rfl

/-! ## The read ports (spec/10_state.md R14, R18, R19) -/

theorem fbByte_written {fb : FrameBuf} {a : Nat} {b : Byte} (h : memRead fb a = some b) (draw : Nat) :
    fbByte fb a draw = b := by
  rw [fbByte, h, Option.getD_some]

theorem fbByte_unwritten {fb : FrameBuf} {a : Nat} (h : memRead fb a = none) (draw : Nat) :
    fbByte fb a draw = Config.drawByte draw := by
  rw [fbByte, h, Option.getD_none]

theorem cmEntry_written {cm : ColorMap} {i : Nat} {w : Word} (h : memRead cm i = some w) (draw : Nat) :
    cmEntry cm i draw = w := by
  rw [cmEntry, h, Option.getD_some]

theorem cmEntry_unwritten {cm : ColorMap} {i : Nat} (h : memRead cm i = none) (draw : Nat) :
    cmEntry cm i draw = Config.drawWord draw := by
  rw [cmEntry, h, Option.getD_none]

section ReadPorts

variable {s : State} (hc : s.cfg.CoreOK) (rest : List Event)
include hc

theorem step_readFb {a : Nat} (ha : a < s.cfg.fbBytes) :
    step { s with inputs := .readFb a :: rest } = .next { s with
      inputs := rest, cmdDone := false, fbRdata := fbByte s.fb a s.draws, draws := s.draws + 1 } := by
  rw [step_withInputs_cons hc]
  exact if_pos ha

theorem step_readFb_beyond {a : Nat} (ha : s.cfg.fbBytes ≤ a) :
    step { s with inputs := .readFb a :: rest } = .fault .noSuchFbAddress := by
  rw [step_withInputs_cons hc]
  exact if_neg (Nat.not_lt.mpr ha)

theorem step_readCm {i : Nat} (hi : i < s.cfg.N) :
    step { s with inputs := .readCm i :: rest } = .next { s with
      inputs := rest, cmdDone := false, cmRdata := cmEntry s.cm i s.draws, draws := s.draws + 1 } := by
  rw [step_withInputs_cons hc]
  exact if_pos hi

theorem step_readCm_beyond {i : Nat} (hi : s.cfg.N ≤ i) :
    step { s with inputs := .readCm i :: rest } = .fault .noSuchCmIndex := by
  rw [step_withInputs_cons hc]
  exact if_neg (Nat.not_lt.mpr hi)

theorem step_readPat :
    step { s with inputs := .readPat :: rest } = .next { s with
      inputs := rest, cmdDone := false, patOut := patBytesRead s s.draws, draws := s.draws + s.cfg.patBytes } :=
  step_withInputs_cons hc .readPat rest

end ReadPorts

/-! ## The configuration of `State.reset` -/

theorem default_coreOK : Config.default.CoreOK := by decide

end Sys2Proof.Machine

/-! ## The statements -/

namespace Sys2Proof

open Sys2Proof.Machine

/-- Settles O7: every event, and what goes on without one, keeps the invariant. -/
theorem stepKeepsInvariant : Obligations.StepKeepsInvariant :=
  fun _ _ => Inv.afterStep

/-- Settles O9: no event, and nothing that goes on without one, writes the configuration. -/
theorem configurationConstant : Obligations.ConfigurationConstant :=
  fun _ _ => step_cfg

/-- Settles O37: of all that can happen to STATUS only a reset clears an error bit. -/
theorem errorBitsSticky : Obligations.ErrorBitsSticky := by
  intro s t h noReset noRst
  have kept : ErrorsKept s.status t.status := by
    rcases step_next h with ⟨-, rfl⟩ | ⟨e, rest, hin, he⟩
    · exact quiet_errorsKept (takeEvent [] s)
    · exact handleEvent_errorsKept (s := takeEvent rest s) he (fun r => noReset rest (r ▸ hin))
        fun v w n r => noRst v w n rest (r ▸ hin)
  exact ⟨kept.bounds, kept.rsvd⟩

/-- Settles O38: the effect carries further STATUS bits along, and completion drops no error bit. -/
theorem errorBitsNotRead : Obligations.ErrorBitsNotRead := by
  intro i e s t h
  rw [exec_next h, exec_effect, effect_orStatus]
  simp only [complete, clearBusy_or]

/-- Settles O8: nothing is written, and nothing in progress, in the state right after reset. -/
theorem invariantAtReset : Obligations.InvariantAtReset :=
  ⟨fun _ => inv_resetOf, inv_resetOf default_coreOK⟩

/-- Settles O45: each value stands in `State.resetOf`, and empty memories have nothing written. -/
theorem resetValues : Obligations.ResetValues :=
  fun _ => ⟨rfl, rfl, fun _ => rfl, fun _ => rfl, rfl, rfl, rfl, rfl⟩

/-- Settles O48: a port gives the cell's contents, which are not a draw where the cell is written. -/
theorem readPortsReturnContents : Obligations.ReadPortsReturnContents := by
  intro s rest hc
  refine ⟨fun a b written ha => ?_, fun i w written hi => ?_, fun written => ?_,
    fun a => step_readFb_beyond hc rest, fun i => step_readCm_beyond hc rest⟩
  · rw [step_readFb hc rest ha, fbByte_written written]
  · rw [step_readCm hc rest hi, cmEntry_written written]
  · rw [step_readPat hc rest, patBytesRead, if_pos written]

/-- Settles O49: where a cell is not written, a port gives the value of the present draw number and uses it up. -/
theorem unwrittenReadsAreFreshDraws : Obligations.UnwrittenReadsAreFreshDraws := by
  intro s rest hc
  refine ⟨fun a unwritten ha => ?_, fun i unwritten hi => ?_, fun unwritten => ?_⟩
  · exact ⟨_, step_readFb hc rest ha, fbByte_unwritten unwritten _, rfl⟩
  · exact ⟨_, step_readCm hc rest hi, cmEntry_unwritten unwritten _, rfl⟩
  · exact ⟨_, step_readPat hc rest, if_neg (by simp [unwritten]), rfl⟩

end Sys2Proof
end

section
/-! SUPPORT. The statements of spec/20_memory.md: the layout of the frame buffer (R29) and operations done twice
(R28). -/

namespace Sys2Proof.Machine

/-! ## The layout of the frame buffer (spec/20_memory.md R29) -/

/-- An offset below `m*n` lies in one of `n` pieces of `m` elements. -/
theorem exists_slot {m n x : Nat} (hx : x < m * n) : ∃ k < n, ∃ t < m, x = m * k + t :=
  have hm : 0 < m := Nat.pos_of_mul_pos_right (Nat.zero_lt_of_lt hx)
  ⟨x / m, Nat.div_lt_of_lt_mul hx, x % m, Nat.mod_lt x hm, (Nat.div_add_mod x m).symm⟩

/-- Where an offset lies in pieces of one size, it lies in one place of one piece. -/
theorem slot_inj {m k k' t t' : Nat} (ht : t < m) (ht' : t' < m) (h : m * k + t = m * k' + t') : k = k' ∧ t = t' := by
  have hm : 0 < m := Nat.zero_lt_of_lt ht
  obtain ⟨hk, hr⟩ := slot_div_mod hm k ht
  obtain ⟨hk', hr'⟩ := slot_div_mod hm k' ht'
  rw [h] at hk hr
  exact ⟨hk.symm.trans hk', hr.symm.trans hr'⟩

theorem exists_layout {c : Config} {a : Nat} (hr : c.resetBytes ≤ a) (ha : a < c.fbBytes) :
    ∃ j k t, j < c.N ∧ k < 12 ∧ t < c.patBytes ∧ a = c.ledBase j + c.patBytes * k + t := by
  have hx : a - c.resetBytes < c.bytesPerLed * c.N := by
    unfold Config.fbBytes at ha
    omega
  obtain ⟨j, hj, y, hy, ha'⟩ := exists_slot hx
  obtain ⟨k, hk, t, ht, rfl⟩ := exists_slot (m := c.patBytes) (n := 12) (x := y) (by rwa [Nat.mul_comm])
  refine ⟨j, k, t, hj, hk, ht, ?_⟩
  unfold Config.ledBase
  omega

theorem layout_range {c : Config} {j k t : Nat} (hj : j < c.N) (hk : k < 12) (ht : t < c.patBytes) :
    c.resetBytes ≤ c.ledBase j + c.patBytes * k + t ∧ c.ledBase j + c.patBytes * k + t < c.fbBytes := by
  have inside := slot_lt_bytesPerLed hk ht
  have fits := ledBase_fits c hj
  have base : c.resetBytes ≤ c.ledBase j := Nat.le_add_right _ _
  omega

theorem layout_inj {c : Config} {j k t j' k' t' : Nat} (hk : k < 12) (ht : t < c.patBytes) (hk' : k' < 12)
    (ht' : t' < c.patBytes)
    (h : c.ledBase j + c.patBytes * k + t = c.ledBase j' + c.patBytes * k' + t') : j = j' ∧ k = k' ∧ t = t' := by
  have flat : c.bytesPerLed * j + (c.patBytes * k + t) = c.bytesPerLed * j' + (c.patBytes * k' + t') := by
    unfold Config.ledBase at h
    omega
  obtain ⟨hj, hslot⟩ := slot_inj (slot_lt_bytesPerLed hk ht) (slot_lt_bytesPerLed hk' ht') flat
  exact ⟨hj, slot_inj ht ht' hslot⟩

/-! ## Operations done twice (spec/20_memory.md R28) -/

theorem setError_setError (e : CoreError) (st : BitVec 3) : setError e (setError e st) = setError e st := by
  cases e <;> simp only [setError, BitVec.or_assoc, BitVec.or_self]

theorem clearBusy_setError_clearBusy (e : CoreError) (st : BitVec 3) :
    clearBusy (setError e (clearBusy st)) = clearBusy (setError e st) := by
  cases e <;> (simp only [setError]; revert st; decide)

/-- Completion before an effect leaves no trace once the effect is completed too. -/
theorem complete_effect_complete (i : Instr) (s : State) :
    complete (effect i (complete s)) = complete (effect i s) := by
  cases i with
  | packclr off color =>
    by_cases fits : fitsBuffer s.cfg off.toNat = true
    · simp [effect, packColor, fits, complete, packPatterns]
    · simp [effect, packColor, fits, complete, raiseError, clearBusy_setError_clearBusy]
  | reserved7 => simp [effect, complete, raiseError, clearBusy_setError_clearBusy]
  | _ =>
    simp [effect, encodeSymbol, writePat, buildFrame, updateMap, packFrame, packReset, mapColor, complete]

/-- A loop that writes key `i` in its body `i`, done twice. -/
theorem forUp_memWrite_twice {α : Type} (v : Nat → α) (n : Nat) {m : List (Nat × α)} (h : Memory.wf m) :
    forUp n (fun i m => memWrite m i (v i)) (forUp n (fun i m => memWrite m i (v i)) m) =
      forUp n (fun i m => memWrite m i (v i)) m := by
  have once := forUp_memWrite_wf v n h
  refine memory_ext (forUp_memWrite_wf v n once) once fun a => ?_
  rw [memRead_forUp_memWrite, memRead_forUp_memWrite]
  split_ifs <;> rfl

@[simp] theorem packFrame_cfg (s : State) : (packFrame s).cfg = s.cfg := rfl

@[simp] theorem updateMap_cfg (offset : Word) (s : State) : (updateMap offset s).cfg = s.cfg := rfl

theorem packReset_twice {s : State} (h : Memory.wf s.fb) : packReset (packReset s) = packReset s :=
  congrArg (fun m => { s with fb := m }) (forUp_memWrite_twice _ _ h)

theorem updateMap_twice (offset : Word) {s : State} (h : Memory.wf s.cm) :
    updateMap offset (updateMap offset s) = updateMap offset s :=
  congrArg (fun m => { s with cm := m }) (forUp_memWrite_twice _ _ h)

theorem packPatterns_twice {s : State} (hc : s.cfg.CoreOK) (h : Memory.wf s.fb) (off : Nat) (color : Word) :
    packPatterns off color (packPatterns off color s) = packPatterns off color s := by
  have once := writePatterns_wf s.cfg off color h
  refine congrArg (fun m => { s with fb := m })
    (memory_ext (writePatterns_wf s.cfg off color once) once fun a => ?_)
  rw [memRead_writePatterns hc, memRead_writePatterns hc]
  split_ifs <;> rfl

theorem raiseError_twice (e : CoreError) (s : State) : raiseError e (raiseError e s) = raiseError e s :=
  congrArg (fun st => { s with status := st }) (setError_setError e s.status)

/-- The second PACKCLR takes the branch of the first: writing the patterns, or the error. -/
theorem packColor_twice {s : State} (hc : s.cfg.CoreOK) (h : Memory.wf s.fb) (off : Nat) (color : Word) :
    packColor off color (packColor off color s) = packColor off color s := by
  by_cases fits : fitsBuffer s.cfg off = true
  · have once : packColor off color s = packPatterns off color s := if_pos fits
    rw [once]
    exact (if_pos fits).trans (packPatterns_twice hc h off color)
  · have once : packColor off color s = raiseError (.bounds off) s := if_neg fits
    rw [once]
    exact (if_neg fits).trans (raiseError_twice (.bounds off) s)

/-- Of a written map PACKFRM reads no free value, so a second PACKFRM reads the same colors. -/
theorem mapColor_packFrame {s : State} (h : MapWritten s) {j : Nat} (hj : j < s.cfg.N) :
    mapColor (packFrame s) j = mapColor s j := by
  obtain ⟨w, written⟩ := Option.isSome_iff_exists.mp (h j hj)
  exact (cmEntry_written written _).trans (cmEntry_written written _).symm

theorem packFrame_twice {s : State} (hc : s.cfg.CoreOK) (h : Memory.wf s.fb) (hm : MapWritten s) :
    packFrame (packFrame s) = useDraws s.cfg.N (packFrame s) := by
  have same : (packFrame (packFrame s)).fb = (packFrame s).fb := by
    refine memory_ext (packFrame_wf (packFrame_wf h)) (packFrame_wf h) fun a => ?_
    rw [memRead_packFrame (s := packFrame s) hc, packFrame_cfg, memRead_packFrame hc]
    by_cases inReset : a < s.cfg.resetBytes
    · rw [if_pos inReset, if_pos inReset]
    by_cases inBuffer : a < s.cfg.fbBytes
    · have led : (a - s.cfg.resetBytes) / s.cfg.bytesPerLed < s.cfg.N := by
        refine Nat.div_lt_of_lt_mul ?_
        unfold Config.fbBytes at inBuffer
        omega
      rw [mapColor_packFrame hm led]
      simp only [if_neg inReset, if_pos inBuffer]
    · simp only [if_neg inReset, if_neg inBuffer]
  exact congrArg (fun m => { useDraws s.cfg.N (packFrame s) with fb := m }) same

theorem mapWritten_updateMap (offset : Word) (s : State) : MapWritten (updateMap offset s) := by
  intro j hj
  rw [updateMap_cfg] at hj
  simp [memRead_updateMap, hj]

/-- BUILD's second UPDMAP finds the map that its first one left: PACKFRM does not write the map. -/
theorem buildFrame_twice {s : State} (h : Inv s) (offset : Word) :
    buildFrame offset (buildFrame offset s) = useDraws s.cfg.N (buildFrame offset s) := by
  have map : updateMap offset (packFrame (updateMap offset s)) = packFrame (updateMap offset s) :=
    congrArg (fun t => { packFrame (updateMap offset s) with cm := t.cm }) (updateMap_twice offset h.cmWf)
  calc buildFrame offset (buildFrame offset s)
      = packFrame (updateMap offset (packFrame (updateMap offset s))) := rfl
    _ = packFrame (packFrame (updateMap offset s)) := by rw [map]
    _ = useDraws s.cfg.N (buildFrame offset s) :=
      packFrame_twice (s := updateMap offset s) h.config h.fbWf (mapWritten_updateMap offset s)

/-- An effect of the five operations of spec/20_memory.md R28 done twice uses up draw numbers and changes nothing
else. -/
theorem effect_twice {i : Instr} {s : State} (h : Inv s) (noNop : i ≠ .nop) (noEnc : ∀ sym, i ≠ .enc sym)
    (noReserved : i ≠ .reserved7) (hm : i = .packfrm → MapWritten s) :
    ∃ n, effect i (effect i s) = useDraws n (effect i s) := by
  cases i with
  | nop => exact absurd rfl noNop
  | enc sym => exact absurd rfl (noEnc sym)
  | packrst => exact ⟨0, packReset_twice h.fbWf⟩
  | packclr off color => exact ⟨0, packColor_twice h.config h.fbWf off.toNat color⟩
  | updmap offset => exact ⟨0, updateMap_twice offset h.cmWf⟩
  | packfrm => exact ⟨s.cfg.N, packFrame_twice h.config h.fbWf (hm rfl)⟩
  | build offset => exact ⟨s.cfg.N, buildFrame_twice h offset⟩
  | reserved7 => exact absurd rfl noReserved

end Sys2Proof.Machine

/-! ## The statements -/

namespace Sys2Proof

open Sys2Proof.Machine

/-- Settles O17: an offset into the LEDs is an LED and an offset into it, which is a pattern and a byte of it. -/
theorem layoutCoversBuffer : Obligations.LayoutCoversBuffer := by
  intro c _
  refine ⟨fun a => exists_layout, fun j k t hj hk ht => ?_⟩
  obtain ⟨low, high⟩ := layout_range hj hk ht
  exact ⟨low, high, fun j' k' t' => layout_inj hk ht⟩

/-- Settles O39: the second effect uses up draw numbers only, and completion in between leaves no trace. -/
theorem operationsIdempotent : Obligations.OperationsIdempotent := by
  intro i s t h noNop noEnc noReserved hm run
  obtain ⟨n, twice⟩ := effect_twice h noNop noEnc noReserved hm
  rw [exec_next run, exec_effect, complete_effect_complete, twice]
  exact ⟨_, rfl, rfl⟩

end Sys2Proof
end

section
/-! SUPPORT. The statements of spec/30_encoding.md: decoding and encoding command words (R33, R34, R36, R39), the table
indices of a color (R37), acceptance and what a busy core does (R35). -/

namespace Sys2Proof

/-! ## Command words (spec/30_encoding.md R33, R34, R36) -/

/-- A number of at most 67 bits is a command word. -/
theorem decode_of_lt {n : Nat} (h : n < 2 ^ 67) : decode n = .ok (decodeWord (BitVec.ofNat 67 n)) := if_pos h

theorem decode_toNat (w : CmdWord) : decode w.toNat = .ok (decodeWord w) := by
  rw [decode_of_lt w.isLt, BitVec.ofNat_toNat, BitVec.setWidth_eq]

/-- The table's 72 bits hold every command word whole. -/
theorem decodeTableWord_toNat (w : CmdWord) : decodeTableWord 72 w.toNat = some (decodeWord w) := by
  have whole : tableWord 72 w.toNat = w.toNat :=
    Nat.mod_eq_of_lt (w.isLt.trans (Nat.pow_lt_pow_right (by decide) (by decide)))
  rw [decodeTableWord, whole, decode_toNat]

/-- A table word that decodes is the command word of the operation it decodes to. -/
theorem decodeWord_tableWord {nbits w : Nat} {i : Instr} (h : decodeTableWord nbits w = some i) :
    decodeWord (BitVec.ofNat 67 (tableWord nbits w)) = i := by
  unfold decodeTableWord decode at h
  split_ifs at h
  exact Option.some.inj h

/-- Every opcode decodes back with its operands. -/
theorem decodeWord_encode (i : Instr) : decodeWord (encode i) = i := by
  cases i with
  | enc sym => rw [encode, decodeWord_op1, symField_setWidth]
  | nop => exact decodeWord_op0 _ _
  | packrst => exact decodeWord_op2 _ _
  | packclr off color => exact decodeWord_op3 _ _
  | updmap offset => exact decodeWord_op4 _ _
  | packfrm => exact decodeWord_op5 _ _
  | build offset => exact decodeWord_op6 _ _
  | reserved7 => exact decodeWord_op7 _ _

/-! ## The fields of a number (spec/95_test_vectors.md section 2.7) -/

theorem opField_ofNat {n : Nat} (h : n < 2 ^ 67) : (opField (BitVec.ofNat 67 n)).toNat = n / 2 ^ 64 := by
  rw [opField, BitVec.extractLsb'_toNat, BitVec.toNat_ofNat, Nat.shiftRight_eq_div_pow]
  omega

theorem arg1Field_ofNat {n : Nat} (h : n < 2 ^ 67) :
    arg1Field (BitVec.ofNat 67 n) = BitVec.ofNat 32 (n / 2 ^ 32 % 2 ^ 32) := by
  apply BitVec.eq_of_toNat_eq
  rw [arg1Field, BitVec.extractLsb'_toNat, BitVec.toNat_ofNat, BitVec.toNat_ofNat, Nat.shiftRight_eq_div_pow]
  omega

theorem arg0Field_ofNat (n : Nat) : arg0Field (BitVec.ofNat 67 n) = BitVec.ofNat 32 (n % 2 ^ 32) := by
  apply BitVec.eq_of_toNat_eq
  rw [arg0Field, BitVec.extractLsb'_toNat, BitVec.toNat_ofNat, BitVec.toNat_ofNat, Nat.shiftRight_eq_div_pow]
  omega

theorem symField_ofNat (n : Nat) : symField (BitVec.ofNat 32 (n % 2 ^ 32)) = BitVec.ofNat 2 (n % 4) := by
  apply BitVec.eq_of_toNat_eq
  rw [symField_toNat, BitVec.toNat_ofNat, BitVec.toNat_ofNat]
  omega

/-- Only bits 1-0 of ENC's operand matter (spec/30_encoding.md R39). -/
theorem symField_congr {arg0 arg0' : Word} (h : arg0.toNat % 4 = arg0'.toNat % 4) :
    symField arg0 = symField arg0' := by
  apply BitVec.eq_of_toNat_eq
  rw [symField_toNat, symField_toNat, h]

/-- A command word read by its opcode field. -/
theorem decodeWord_eq_ite (w : CmdWord) :
    decodeWord w =
      if (opField w).toNat = 0 then .nop
      else if (opField w).toNat = 1 then .enc (symField (arg0Field w))
      else if (opField w).toNat = 2 then .packrst
      else if (opField w).toNat = 3 then .packclr (arg0Field w) (arg1Field w)
      else if (opField w).toNat = 4 then .updmap (arg0Field w)
      else if (opField w).toNat = 5 then .packfrm
      else if (opField w).toNat = 6 then .build (arg0Field w)
      else .reserved7 := by
  unfold decodeWord
  split <;> simp_all

end Sys2Proof

namespace Sys2Proof.Machine

/-! ## The bits of a color (spec/30_encoding.md R37) -/

/-- The bits from `a` to `a + b - 1` of a number lie in its low `m` bits. -/
theorem mod_two_pow_div_mod {a b m : Nat} (h : a + b ≤ m) (x : Nat) :
    x % 2 ^ m / 2 ^ a % 2 ^ b = x / 2 ^ a % 2 ^ b := by
  obtain ⟨d, rfl⟩ := Nat.exists_eq_add_of_le h
  rw [Nat.add_assoc, Nat.pow_add, Nat.mod_mul_right_div_self,
    Nat.mod_mod_of_dvd _ (Nat.pow_dvd_pow 2 (Nat.le_add_right b d))]

/-- Pair `k` of a color is pair `k mod 4` of its channel byte `k div 4`. -/
theorem channel_pair (x : Nat) {k : Nat} (hk : k < 12) :
    x % 2 ^ 24 / 2 ^ (22 - 2 * k) % 2 ^ 2 = x / 2 ^ (16 - 8 * (k / 4)) % 2 ^ 8 / 2 ^ (6 - 2 * (k % 4)) % 2 ^ 2 := by
  have place : 16 - 8 * (k / 4) + (6 - 2 * (k % 4)) = 22 - 2 * k := by omega
  rw [mod_two_pow_div_mod (by omega), mod_two_pow_div_mod (by omega), Nat.div_div_eq_div_mul, ← Nat.pow_add, place]

/-- Bits 31-24 of the color are not read (spec/30_encoding.md R39). -/
theorem packColor_congr {color color' : Word} (h : color.toNat % 2 ^ 24 = color'.toNat % 2 ^ 24) (off : Nat)
    (s : State) : packColor off color s = packColor off color' s := by
  have pairs : pairIndex color = pairIndex color' := funext (pairIndex_congr h)
  simp only [packColor, packPatterns, writePatterns, pairs]

/-! ## The core at work (spec/30_encoding.md R35) -/

/-- All that acceptance changes: STATUS, in which BUSY is then set, and the counters. What comes next in `inputs` plays
no part. -/
theorem startOperation_form (i : Instr) (s : State) :
    ∃ st q, busyBit st = true ∧
      ∀ l, startOperation i { s with inputs := l } = { s with inputs := l, status := st, seq := some q } := by
  cases i with
  | packclr off color =>
    by_cases fits : fitsBuffer s.cfg off.toNat = true
    · exact ⟨setBusy s.status, _, by simp, fun _ => if_pos fits⟩
    · exact ⟨setError (.bounds off.toNat) (setBusy s.status), _, by simp, fun _ => if_neg fits⟩
  | reserved7 => exact ⟨setError (.reservedOp 7#3) (setBusy s.status), _, by simp, fun _ => rfl⟩
  | _ => exact ⟨setBusy s.status, _, by simp, fun _ => rfl⟩

theorem startOperation_withInputs (i : Instr) (s : State) (l : List Event) :
    startOperation i { s with inputs := l } = { startOperation i s with inputs := l } := by
  obtain ⟨st, q, -, form⟩ := startOperation_form i s
  have started : startOperation i s = { s with status := st, seq := some q } := form s.inputs
  rw [form, started]

/-- BUSY is 1 and the sequencer has writes left. -/
structure AtWork (s : State) : Prop where
  busy : busyBit s.status = true
  seq : s.seq.isSome = true

theorem startOperation_atWork (i : Instr) (s : State) : AtWork (startOperation i s) := by
  obtain ⟨st, q, busy, form⟩ := startOperation_form i s
  have started : startOperation i s = { s with status := st, seq := some q } := form s.inputs
  rw [started]
  exact ⟨busy, rfl⟩

/-- A phase's state with STATUS as acceptance left it is at work. -/
theorem AtWork.of_phase {t u : State} {st : BitVec 3} (phase : u = t) (status : t.status = setBusy st)
    (seq : t.seq.isSome = true) : AtWork u :=
  ⟨by rw [phase, status, busyBit_setBusy], phase ▸ seq⟩

/-- Before its last write an operation leaves the core at work: each phase keeps STATUS and goes on in its own
counters. -/
theorem sequencer_atWork (i : Instr) {s : State} {n : Nat} (hc : s.cfg.CoreOK) (hn : n < writeCount s.cfg i) :
    AtWork (repeatOp microStep n (startOperation i s)) := by
  have ⟨_, _, _, hN, _⟩ := hc
  have oneStep (one : writeCount s.cfg i = 1) : AtWork (repeatOp microStep n (startOperation i s)) := by
    obtain rfl : n = 0 := by omega
    exact startOperation_atWork i s
  cases i with
  | nop => exact oneStep rfl
  | enc sym => exact oneStep rfl
  | packrst => exact .of_phase (resetPhase (s := accept s) false n hn) rfl rfl
  | packclr off color =>
    by_cases fits : fitsBuffer s.cfg off.toNat = true
    · rw [writeCount, if_pos fits] at hn
      rw [startOperation, if_pos fits]
      exact .of_phase (packClrPhase (s := accept s) hc off.toNat color n hn) rfl rfl
    · exact oneStep (if_neg fits)
  | updmap offset => exact .of_phase (mapPhase (s := accept s) offset false n hn) rfl rfl
  | packfrm =>
    obtain ⟨status, seq⟩ := framePhases_busy (s := accept s) hc n hn
    exact .of_phase rfl status seq
  | build offset =>
    by_cases inMap : n < s.cfg.N
    · exact .of_phase (mapPhase (s := accept s) offset true n inMap) rfl rfl
    · obtain ⟨m, rfl⟩ := Nat.exists_eq_add_of_le (Nat.not_lt.mp inMap)
      have map : repeatOp microStep s.cfg.N (startOperation (.build offset) s) =
          { updateMap offset (accept s) with seq := some (.reset 0 true) } :=
        mapPhase_end (s := accept s) offset true hN
      obtain ⟨status, seq⟩ :=
        framePhases_busy (s := updateMap offset (accept s)) hc m (Nat.add_lt_add_iff_left.mp hn)
      exact .of_phase (by rw [repeatOp_add, map]) status seq
  | reserved7 => exact oneStep rfl

/-! ## A command at a ready core (spec/30_encoding.md R35, spec/00_scope.md R6) -/

theorem cmdReady_eq_true {st : BitVec 3} : cmdReady st = true ↔ busyBit st = false := by simp [cmdReady]

theorem atomicHere_iff {i : Instr} {s : State} : atomicHere i s = true ↔ s.xfer = none ∨ i.writesFb = false := by
  simp [atomicHere]

section ReadyCore

variable {s : State} {w : CmdWord} {rest : List Event} (hc : s.cfg.CoreOK) (ready : busyBit s.status = false)
include hc ready

theorem step_command_atomic (hin : s.inputs = .command w :: rest) (atomic : atomicHere (decodeWord w) s = true) :
    step s = exec (decodeWord w) (holdPort none (takeEvent rest s)) := by
  rw [step_cons hc hin]
  exact (if_pos (cmdReady_eq_true.mpr ready)).trans (if_pos atomic)

theorem step_command_race (hin : s.inputs = .command w :: rest) (race : ¬ atomicHere (decodeWord w) s = true) :
    step s = .next (startOperation (decodeWord w)
      { s with inputs := .await :: rest, cmdDone := false, offered := none }) := by
  have started := startOperation_withInputs (decodeWord w) (holdPort none (takeEvent rest s)) (.await :: rest)
  rw [step_cons hc hin]
  exact (if_pos (cmdReady_eq_true.mpr ready)).trans ((if_neg race).trans (congrArg _ started.symm))

theorem step_edge_ready (v : Bool) (n : Nat) :
    step { s with inputs := .edge false v w n :: rest } = .next (
      if v then startOperation (decodeWord w) { s with inputs := rest, cmdDone := false, offered := none }
      else { s with inputs := rest, cmdDone := false, offered := none }) := by
  rw [step_withInputs_cons hc]
  simp [handleEvent, clockEdge, leftOnPort, cmdReady, ready, holdPort]

end ReadyCore

/-! ## A busy core (spec/30_encoding.md R35, spec/70_reset_and_hazards.md R86, R90) -/

section BusyCore

variable {s : State} (hc : s.cfg.CoreOK) (busy : busyBit s.status = true) (rest : List Event)
include hc busy

theorem step_edge_busy (v : Bool) (w : CmdWord) (n : Nat) :
    step { s with inputs := .edge false v w n :: rest } = .next (repeatOp microStep n
      { s with inputs := rest, cmdDone := false, offered := if v then some w else none }) := by
  rw [step_withInputs_cons hc]
  simp [handleEvent, clockEdge, leftOnPort, cmdReady, busy, holdPort]

theorem step_command_busy (w : CmdWord) :
    step { s with inputs := .command w :: rest } =
      .next (quiet { s with inputs := .command w :: rest, cmdDone := false, offered := some w }) := by
  rw [step_withInputs_cons hc]
  simp [handleEvent, issueCommand, cmdReady, busy, holdPort]

theorem step_await_busy :
    step { s with inputs := .await :: rest } =
      .next (quiet { s with inputs := .await :: rest, cmdDone := false }) := by
  rw [step_withInputs_cons hc]
  simp [handleEvent, awaitReady, cmdReady, busy]

/-- HOST does nothing, offers a command or waits for the core: what goes on goes on, with `port` on the port. -/
theorem step_waiting {l : List Event} {port : Option CmdWord}
    (h : (l = [] ∧ port = s.offered) ∨ (∃ w, l = .command w :: rest ∧ port = some w) ∨
      (l = .await :: rest ∧ port = s.offered)) :
    step { s with inputs := l } = .next (quiet { s with inputs := l, cmdDone := false, offered := port }) := by
  rcases h with ⟨rfl, rfl⟩ | ⟨w, rfl, rfl⟩ | ⟨rfl, rfl⟩
  · exact step_withInputs_nil hc
  · exact step_command_busy hc busy rest w
  · exact step_await_busy hc busy rest

end BusyCore

theorem step_awaitTransfer_pending {s : State} (hc : s.cfg.CoreOK) (rest : List Event) (pending : s.xfer ≠ none) :
    step { s with inputs := .awaitTransfer :: rest } =
      .next (quiet { s with inputs := .awaitTransfer :: rest, cmdDone := false }) := by
  rw [step_withInputs_cons hc]
  simp [handleEvent, awaitTransferEnd, pending]

/-- A submission the transport answers with success (spec/60_exceptions.md R73). -/
theorem step_transfer_starts {s : State} (hc : s.cfg.CoreOK) (rest : List Event) {length pin : Nat} {bus : BusConfig}
    (hbus : s.busConfig = some bus) (hpin : s.busPin = some pin) (free : s.xfer = none) (short : length ≤ bus.maxXfer)
    (fits : length ≤ s.cfg.fbBytes) :
    step { s with inputs := .transfer length true :: rest } =
      .next (startTransfer length { s with inputs := rest, cmdDone := false }) := by
  rw [step_withInputs_cons hc]
  simp [handleEvent, transferCall, hbus, hpin, free, Nat.not_lt.mpr short, Nat.not_lt.mpr fits]

/-- At a busy core a submission reads no byte, and a blocking transport holds HOST in the call. -/
theorem startTransfer_atBusyCore {s : State} {length : Nat} (pos : 0 < length) (busy : busyBit s.status = true) :
    startTransfer length s = { s with
      inputs := if s.cfg.blocking then .awaitTransfer :: s.inputs else s.inputs
      xfer := some { next := 0, length := length, held := [] } } := by
  cases blocking : s.cfg.blocking
  · exact startTransfer_nonblocking pos blocking
  · exact startTransfer_busy pos blocking busy

end Sys2Proof.Machine

/-! ## The statements -/

namespace Sys2Proof

open Sys2Proof.Machine

/-- Settles O1: a command word's number fits both numberings, and every opcode decodes back. -/
theorem decodeEncodeRoundTrip : Obligations.DecodeEncodeRoundTrip := by
  intro i
  rw [decode_toNat, decodeTableWord_toNat, decodeWord_encode]
  exact ⟨rfl, rfl⟩

/-- Settles O2: the word's fields are those of the number. -/
theorem operandFieldsOfEachOpcode : Obligations.OperandFieldsOfEachOpcode := by
  refine fun n => ⟨fun h => ?_, fun h => if_neg (Nat.not_lt.mpr h)⟩
  rw [decode_of_lt h, decodeWord_eq_ite, opField_ofNat h, arg0Field_ofNat, arg1Field_ofNat h, symField_ofNat]

/-- Settles O3: the decoder drops all unused bits but the top byte of PACKCLR's color, which no pair index reads. -/
theorem unusedOperandBitsIgnored : Obligations.UnusedOperandBitsIgnored := by
  refine fun a1 a0 b1 b0 s => ⟨?_, fun h => ?_, fun h => ?_, ?_⟩
  · simp
  · rw [decodeWord_op1, decodeWord_op1, symField_congr h]
  · rw [decodeWord_op3, decodeWord_op3]
    exact congrArg (fun t => Host.Outcome.next (complete t)) (packColor_congr h a0.toNat (accept s))
  · simp

/-- Settles O16: pair `k` lies in the color's low 24 bits, inside one channel byte. -/
theorem pairIndexExtraction : Obligations.PairIndexExtraction := by
  intro color k hk
  have shifted := pairIndex_toNat color k
  exact ⟨shifted, shifted.trans (channel_pair color.toNat hk), pairIndex_getLsbD color hk⟩

/-- Settles O42: every phase before the last write keeps STATUS and the sequencer at work. -/
theorem busyUntilLastWrite : Obligations.BusyUntilLastWrite := by
  intro i s n hc hn
  obtain ⟨busy, seq⟩ := sequencer_atWork i hc hn
  exact ⟨busy, seq⟩

/-- Settles O43, by the step at a busy core for each of HOST's actions; what goes on by itself is the core's write with
no transfer pending, and one of the two with one. -/
theorem busyCoreDoesNotAccept : Obligations.BusyCoreDoesNotAccept := by
  intro s rest hc busy
  refine ⟨step_edge_busy hc busy rest, fun w n t h rst v w' n' duty => ?_, fun w => ?_, fun l port h free => ?_,
    fun l port h atWork pending => ?_, fun length pin bus hbus hpin free pos short fits => ?_⟩
  · obtain rfl := Host.Outcome.next.inj ((step_edge_busy hc busy rest true w n).symm.trans h)
    obtain ⟨holds, valid, -⟩ := duty
    have onPort := (repeatOp_microStep_onlyCore n
      { s with inputs := rest, cmdDone := false, offered := some w }).offered
    exact ⟨valid (by simp [onPort]), holds w onPort⟩
  · exact ⟨_, step_command_busy hc busy rest w, quiet_inputs _, quiet_offered _⟩
  · exact (step_waiting hc busy rest h).trans (congrArg _ (quiet_noTransfer free))
  · rcases h with h | h | h | ⟨rfl, rfl⟩
    · exact ⟨_, step_waiting hc busy rest (.inl h), quiet_race atWork pending⟩
    · exact ⟨_, step_waiting hc busy rest (.inr (.inl h)), quiet_race atWork pending⟩
    · exact ⟨_, step_waiting hc busy rest (.inr (.inr h)), quiet_race atWork pending⟩
    · exact ⟨_, step_awaitTransfer_pending hc rest pending, quiet_race atWork pending⟩
  · rw [step_transfer_starts hc rest hbus hpin free short fits]
    exact congrArg _ (startTransfer_atBusyCore (s := { s with inputs := rest, cmdDone := false }) pos busy)

/-- Settles O5: a ready core takes the command, whole where the hazard rule is kept and write by write elsewhere. -/
theorem stepRunsDecodedCommand : Obligations.StepRunsDecodedCommand := by
  refine fun s w rest hc hin ready => ⟨fun kept => ?_, fun pending stores => ?_⟩
  · exact step_command_atomic hc ready hin (atomicHere_iff.mpr kept)
  · rw [step_command_race hc ready hin (by simp [atomicHere_iff, pending, stores])]
    exact congrArg _ (startOperation_withInputs (decodeWord w) { s with cmdDone := false, offered := none } _)

/-- Settles O6: the placed command finds a ready core and no transfer that it could race. -/
theorem placedWordRunsNext : Obligations.PlacedWordRunsNext := by
  intro s nbits w i hc h
  obtain rfl := decodeWord_tableWord h
  refine step_command_atomic (s := s.withFetchWord nbits w) hc (busyBit_clearBusy _) rfl (atomicHere_iff.mpr ?_)
  cases stores : (decodeWord (BitVec.ofNat 67 (tableWord nbits w))).writesFb
  · exact .inr rfl
  · exact .inl (if_pos stores)

/-- Settles O44: acceptance sets BUSY and the counters, and writes no memory. -/
theorem idleCoreAcceptsAtEdge : Obligations.IdleCoreAcceptsAtEdge := by
  intro s w n rest hc ready
  obtain ⟨st, q, busy, started⟩ := startOperation_form (decodeWord w) { s with cmdDone := false, offered := none }
  exact ⟨step_edge_ready hc ready false n, _, (step_edge_ready hc ready true n).trans (congrArg _ (started rest)),
    (started rest).symm, busy, rfl, rfl, rfl, rfl, rfl, rfl, rfl⟩

end Sys2Proof
end

section
/-! SUPPORT. The statements of spec/40_symbol_encoder.md: the encoder's table (R42, R46(a)), the run lengths of its
patterns (R43(d), R46(b)), the default tables (R44) and ENC (R45). -/

namespace Sys2Proof

/-- The table index is the operand modulo 4 (spec/30_encoding.md R36). -/
theorem symField_eq_ofNat (arg0 : Word) : symField arg0 = BitVec.ofNat 2 (arg0.toNat % 4) := by
  apply BitVec.eq_of_toNat_eq
  rw [symField_toNat, BitVec.toNat_ofNat]
  omega

end Sys2Proof

namespace Sys2Proof.Machine

/-! ## The table and its pulses -/

/-- The encoder as a choice by the index (spec/40_symbol_encoder.md R42). -/
theorem symbolEncoder_eq_ite (c : Config) (s : BitVec 2) :
    symbolEncoder c s = if s = 0#2 then c.table.p0 else if s = 1#2 then c.table.p1
      else if s = 2#2 then c.table.p2 else c.table.p3 := by
  have indices : ∀ x : BitVec 2, x = 0#2 ∨ x = 1#2 ∨ x = 2#2 ∨ x = 3#2 := by decide
  rcases indices s with rfl | rfl | rfl | rfl <;> rfl

/-- The encoder reads `TABLE` and nothing else (spec/40_symbol_encoder.md R42). -/
theorem symbolEncoder_congr {c c' : Config} (ht : c.table = c'.table) (s : BitVec 2) :
    symbolEncoder c s = symbolEncoder c' s := by
  rw [symbolEncoder, symbolEncoder, ht]

/-- The pulse form is a property of `E` and `TABLE` alone. -/
theorem pulseShaped_congr {c c' : Config} (hE : c.E = c'.E) (ht : c.table = c'.table) {h0 h1 : Nat}
    (h : PulseShaped c' h0 h1) : PulseShaped c h0 h1 := by
  obtain ⟨pos, lt, le, shape⟩ := h
  refine ⟨pos, lt, hE ▸ le, fun s => ?_⟩
  rw [symbolEncoder_congr ht, hE, shape]

/-- `TABLE_A_DEFAULT` with `E = 12` (spec/40_symbol_encoder.md R44). -/
theorem pulseShaped_tableA :
    PulseShaped { Config.default with variant := .A, E := 12, table := Config.tableA } 4 8 := by decide

/-- `TABLE_B_DEFAULT` with `E = 4`, the table of `Config.default` (spec/40_symbol_encoder.md R44). -/
theorem pulseShaped_tableB : PulseShaped Config.default 1 3 := by decide

/-- A pattern is the pulses of its two index bits, the more significant one first (spec/40_symbol_encoder.md R43(d)). -/
theorem wireBits_symbolEncoder {c : Config} {h0 h1 : Nat} (hp : PulseShaped c h0 h1) (s : BitVec 2) :
    wireBits (symbolEncoder c s) = pulseTrain c.E h0 h1 [s.getLsbD 1, s.getLsbD 0] := by
  obtain ⟨-, -, -, shape⟩ := hp
  rw [shape]
  simp [pulseTrain]

/-- A pulse train is measured as one high and one low run for each of its bits (spec/40_symbol_encoder.md R46(b)). -/
theorem runLengths_pulseTrain {c : Config} {h0 h1 : Nat} (hp : PulseShaped c h0 h1) (bs : List Bool) :
    runLengths (pulseTrain c.E h0 h1 bs) =
      bs.flatMap fun b => [(true, highRun h0 h1 b), (false, c.E - highRun h0 h1 b)] := by
  induction bs with
  | nil => rfl
  | cons b bs ih =>
    obtain ⟨hpos, hlt⟩ := highRun_bounds hp b
    rw [pulseTrain_cons, runLengths_pulse hpos hlt (pulseTrain_head hp bs), ih]
    rfl

end Sys2Proof.Machine

/-! ## The statements -/

namespace Sys2Proof

open Sys2Proof.Machine

/-- Settles O12, by the lengths and the distinctness that `Config.CoreOK` asks of the table. -/
theorem encoderTotalAndDistinct : Obligations.EncoderTotalAndDistinct :=
  fun _ hc s _ => ⟨symbolEncoder_length hc s, symbolEncoder_inj hc⟩

/-- Settles O13: a pattern is a train of two pulses, and a train is measured pulse by pulse. -/
theorem patternRunLengths : Obligations.PatternRunLengths := by
  intro c h0 h1 hp s
  rw [wireBits_symbolEncoder hp, runLengths_pulseTrain hp]
  rfl

/-- Settles O11: ENC's effect is the write of `PAT`, and an assembled word carries the operand unchanged. -/
theorem encLatchesPattern : Obligations.EncLatchesPattern := by
  refine ⟨fun sym s => ?_, fun arg1 arg0 => ?_⟩
  · rw [exec_effect, ← symbolEncoder_eq_ite]
    rfl
  · rw [decodeWord_op1, symField_eq_ofNat]

/-- Settles O14: the form depends on `E` and `TABLE` alone, and the two default tables have it. -/
theorem defaultTablesPulseShaped : Obligations.DefaultTablesPulseShaped :=
  fun _ => ⟨fun hE ht => pulseShaped_congr hE ht pulseShaped_tableA,
    fun hE ht => pulseShaped_congr hE ht pulseShaped_tableB⟩

end Sys2Proof
end

section
/-! SUPPORT. The statements of spec/41_frame_packer.md: PACKRST (R47), PACKCLR (R48), PACKFRM (R49), the frame they
leave (R50), and which operation stores where (R51). -/

namespace Sys2Proof.Machine

/-! ## The bits of a color (spec/30_encoding.md R37) -/

theorem pairIndex_eq_ofNat (color : Word) (k : Nat) :
    pairIndex color k = BitVec.ofNat 2 (color.toNat % 2 ^ 24 / 2 ^ (22 - 2 * k)) := by
  apply BitVec.eq_of_toNat_eq
  rw [pairIndex_toNat, BitVec.toNat_ofNat]

/-- The twelve pairs are all of bits 23-0. -/
theorem color_mod_eq_of_pairIndex {color color' : Word} (h : ∀ k < 12, pairIndex color k = pairIndex color' k) :
    color.toNat % 2 ^ 24 = color'.toNat % 2 ^ 24 := by
  have bits : ∀ i < 24, color.getLsbD i = color'.getLsbD i := by
    intro i hi
    have hk : (23 - i) / 2 < 12 := by omega
    obtain ⟨high, low⟩ := pairIndex_getLsbD color hk
    obtain ⟨high', low'⟩ := pairIndex_getLsbD color' hk
    rw [h _ hk] at high low
    obtain place | place : i = 23 - 2 * ((23 - i) / 2) ∨ i = 22 - 2 * ((23 - i) / 2) := by omega
    · rw [place, ← high, high']
    · rw [place, ← low, low']
  refine Nat.eq_of_testBit_eq fun i => ?_
  rw [Nat.testBit_mod_two_pow, Nat.testBit_mod_two_pow]
  by_cases hi : i < 24
  · exact congrArg _ (bits i hi)
  · simp [hi]

/-! ## PACKCLR (spec/41_frame_packer.md R48) -/

theorem memRead_writePatterns_slot {c : Config} (hc : c.CoreOK) (off : Nat) (color : Word) (m : FrameBuf) {k t : Nat}
    (hk : k < 12) (ht : t < c.patBytes) :
    memRead (writePatterns c off color m) (off + c.patBytes * k + t) =
      (symbolEncoder c (pairIndex color k))[t]? := by
  have inside := slot_lt_bytesPerLed hk ht
  rw [memRead_writePatterns hc, if_pos (by omega), Nat.add_assoc, Nat.add_sub_cancel_left, ledBytes_slot hc color hk ht]

theorem memRead_writePatterns_outside {c : Config} (hc : c.CoreOK) {off a : Nat} (color : Word) (m : FrameBuf)
    (h : a < off ∨ off + c.bytesPerLed ≤ a) : memRead (writePatterns c off color m) a = memRead m a := by
  rw [memRead_writePatterns hc, if_neg (by omega)]

theorem exec_packclr_fits {off : Word} (color : Word) {s : State}
    (fits : off.toNat + s.cfg.bytesPerLed ≤ s.cfg.fbBytes) :
    exec (.packclr off color) s = .next { completed s with fb := writePatterns s.cfg off.toNat color s.fb } := by
  have writes : packColor off.toNat color s = packPatterns off.toNat color s := if_pos ((fitsBuffer_iff _ _).mpr fits)
  rw [exec_effect, effect, writes]
  rfl

theorem exec_packclr_refused {off : Word} (color : Word) {s : State}
    (beyond : s.cfg.fbBytes < off.toNat + s.cfg.bytesPerLed) :
    exec (.packclr off color) s = .next { completed s with status := (s.status &&& 0b110#3) ||| 0b010#3 } := by
  have refused : packColor off.toNat color s = raiseError (.bounds off.toNat) s :=
    if_neg (by rw [fitsBuffer_iff]; omega)
  rw [exec_effect, effect, refused, ← clearBusy_setError_bounds off.toNat, clearBusy_setError_setBusy]
  rfl

/-- LED bases are operands that no truncation changes (spec/00_scope.md R9). -/
theorem toNat_ledBase {c : Config} (hc : c.CoreOK) {j : Nat} (hj : j < c.N) :
    (BitVec.ofNat 32 (c.ledBase j)).toNat = c.ledBase j := by
  obtain ⟨-, -, -, -, -, small, -⟩ := hc
  have fits := ledBase_fits c hj
  rw [BitVec.toNat_ofNat, Nat.mod_eq_of_lt (by omega)]

/-- The last LED's slot ends where the buffer ends. -/
theorem ledBase_last {c : Config} (hc : c.CoreOK) : c.ledBase (c.N - 1) + c.bytesPerLed = c.fbBytes := by
  obtain ⟨-, -, -, leds, -⟩ := hc
  rw [← ledBase_succ, Nat.sub_add_cancel leds, ledBase_N]

/-- The offsets next above the largest one that fits, and `0xFFFFFFFF`, are too large. -/
theorem packclr_beyond_last {c : Config} (hc : c.CoreOK) {off : Word}
    (h : off = BitVec.ofNat 32 (c.ledBase (c.N - 1) + 1) ∨ off = 0xFFFFFFFF#32) :
    c.fbBytes < off.toNat + c.bytesPerLed := by
  have last := ledBase_last hc
  have slot : 12 ≤ c.bytesPerLed := Nat.le_mul_of_pos_right 12 (patBytes_pos hc)
  obtain ⟨-, -, -, -, -, small, -⟩ := hc
  rcases h with rfl | rfl
  · rw [BitVec.toNat_ofNat, Nat.mod_eq_of_lt (by omega)]
    omega
  · rw [BitVec.toNat_ofNat]
    omega

/-- PACKCLR's buffer after any number of its writes: that many bytes of the LED, from its base upwards. -/
theorem packclr_writes_fb {off : Word} (color : Word) {s : State} (hc : s.cfg.CoreOK)
    (fits : off.toNat + s.cfg.bytesPerLed ≤ s.cfg.fbBytes) {n : Nat} (hn : n ≤ s.cfg.bytesPerLed) :
    (repeatOp microStep n (startOperation (.packclr off color) s)).fb =
      memWriteSeq off.toNat ((ledBytes s.cfg color).take n) s.fb := by
  have started : startOperation (.packclr off color) s =
      { accept s with seq := some (.packClr off.toNat color 0 off.toNat) } :=
    if_pos ((fitsBuffer_iff _ _).mpr fits)
  rw [started]
  rcases Nat.lt_or_eq_of_le hn with before | rfl
  · exact congrArg State.fb (packClrPhase (s := accept s) hc off.toNat color n before)
  · rw [List.take_of_length_le (ledBytes_length hc color).le, ← writePatterns_eq hc]
    exact congrArg State.fb (packClrPhase_end (s := accept s) hc off.toNat color)

/-! ## PACKFRM and the frame (spec/41_frame_packer.md R49, R50) -/

/-- The buffer after PACKFRM holds the frame of the colors it read. -/
theorem frameHolds_packFrame {s : State} (hc : s.cfg.CoreOK) : FrameHolds (packFrame s) (mapColor s) := by
  refine ⟨fun a ha => ?_, fun j hj k hk t ht => ?_⟩
  · rw [memRead_packFrame hc]
    exact if_pos ha
  · rw [packFrame_cfg] at hj ht ⊢
    have inSlot := slot_lt_bytesPerLed hk ht
    obtain ⟨low, high⟩ := layout_range hj hk ht
    obtain ⟨led, byte⟩ := slot_div_mod (bytesPerLed_pos hc) j inSlot
    have place : s.cfg.ledBase j + s.cfg.patBytes * k + t - s.cfg.resetBytes =
        s.cfg.bytesPerLed * j + (s.cfg.patBytes * k + t) := by
      unfold Config.ledBase
      omega
    rw [memRead_packFrame hc, if_neg (by omega), if_pos high, place, led, byte, ledBytes_slot hc _ hk ht]

theorem memRead_packFrame_beyond {s : State} (hc : s.cfg.CoreOK) {a : Nat} (ha : s.cfg.fbBytes ≤ a) :
    memRead (packFrame s).fb a = memRead s.fb a := by
  have reset : s.cfg.resetBytes ≤ s.cfg.fbBytes := Nat.le_add_right _ _
  rw [memRead_packFrame hc, if_neg (by omega), if_neg (by omega)]

theorem exec_packfrm (s : State) :
    exec .packfrm s = .next { completed s with fb := (packFrame s).fb, draws := s.draws + s.cfg.N } := exec_effect _ s

/-- A frame in the buffer has one pair of bits for each of its patterns: the four patterns are distinct. -/
theorem FrameHolds.pairIndex_eq {s : State} {col col' : Nat → Word} (hc : s.cfg.CoreOK) (h : FrameHolds s col)
    (h' : FrameHolds s col') {j k : Nat} (hj : j < s.cfg.N) (hk : k < 12) :
    pairIndex (col j) k = pairIndex (col' j) k := by
  obtain ⟨-, slots⟩ := h
  obtain ⟨-, slots'⟩ := h'
  refine symbolEncoder_inj hc (List.ext_getElem? fun t => ?_)
  by_cases ht : t < s.cfg.patBytes
  · rw [← slots j hj k hk t ht, slots' j hj k hk t ht]
  · have beyond : ∀ p, (symbolEncoder s.cfg p)[t]? = none := fun p =>
      List.getElem?_eq_none (by rw [symbolEncoder_length hc]; omega)
    rw [beyond, beyond]

/-! ## PACKFRM as PACKRST and one PACKCLR for each LED (spec/95_test_vectors.md V12) -/

theorem execAll_cons {i : Instr} {s t : State} (h : exec i s = .next t) (is : List Instr) :
    execAll (i :: is) s = execAll is t := by
  rw [execAll, h]

theorem execAll_append {is js : List Instr} {s t : State} (h : execAll is s = .next t) :
    execAll (is ++ js) s = execAll js t := by
  induction is generalizing s with
  | nil => rw [Host.Outcome.next.inj h, List.nil_append]
  | cons i is ih =>
    have first := exec_effect i s
    rw [execAll_cons first] at h
    rw [List.cons_append, execAll_cons first, ih h]

theorem forUp_congr {σ : Type} {f g : Nat → σ → σ} {n : Nat} (h : ∀ i < n, f i = g i) (s : σ) :
    forUp n f s = forUp n g s := by
  induction n with
  | zero => rfl
  | succ n ih => rw [forUp_succ, forUp_succ, ih fun i hi => h i (by omega), h n (by omega)]

/-- PACKCLRs at the LED bases, after a completed operation, write the LEDs and leave nothing else behind. -/
theorem execAll_packclrs {s : State} (hc : s.cfg.CoreOK) (col : Nat → Word) {n : Nat} (hn : n ≤ s.cfg.N) :
    execAll ((List.range n).map fun j => .packclr (BitVec.ofNat 32 (s.cfg.ledBase j)) (col j)) (completed s) =
      .next { completed s with fb := forUp n (fun j => writePatterns s.cfg (s.cfg.ledBase j) (col j)) s.fb } := by
  induction n with
  | zero => rfl
  | succ n ih =>
    have base := toNat_ledBase hc hn
    have fits := ledBase_fits s.cfg hn
    rw [List.range_succ, List.map_append, execAll_append (ih (by omega)), List.map_singleton,
      execAll_cons (exec_packclr_fits (col n) (by rw [base]; exact fits)), base]
    simp [execAll, forUp_succ, completed, BitVec.and_assoc]

/-- Of a written map PACKFRM reads the written words, whatever the draw counter. -/
theorem mapColor_written {s : State} {j : Nat} {w : Word} (h : memRead s.cm j = some w) : mapColor s j = w :=
  cmEntry_written h _

/-! ## Which operation stores where (spec/41_frame_packer.md R51, spec/10_state.md R14) -/

theorem effect_fb {i : Instr} (noPackclr : ∀ off color, i ≠ .packclr off color) (noPackrst : i ≠ .packrst)
    (noPackfrm : i ≠ .packfrm) (noBuild : ∀ o, i ≠ .build o) (s : State) : (effect i s).fb = s.fb := by
  cases i with
  | packclr off color => exact absurd rfl (noPackclr off color)
  | packrst => exact absurd rfl noPackrst
  | packfrm => exact absurd rfl noPackfrm
  | build o => exact absurd rfl (noBuild o)
  | _ => rfl

/-- PACKCLR, fitting or refused, changes the buffer and STATUS only. -/
theorem packColor_outside (off : Nat) (color : Word) (s : State) :
    packColor off color s =
      { s with fb := (packColor off color s).fb, status := (packColor off color s).status } := by
  rcases packColor_cases off color s with ⟨-, h⟩ | ⟨-, h⟩ <;> rw [h] <;> rfl

theorem effect_cm {i : Instr} (noUpdmap : ∀ o, i ≠ .updmap o) (noBuild : ∀ o, i ≠ .build o) (s : State) :
    (effect i s).cm = s.cm := by
  cases i with
  | updmap o => exact absurd rfl (noUpdmap o)
  | build o => exact absurd rfl (noBuild o)
  | packclr off color => rw [effect, packColor_outside]
  | _ => rfl

theorem effect_pat {i : Instr} (noEnc : ∀ sym, i ≠ .enc sym) (s : State) :
    (effect i s).pat = s.pat ∧ (effect i s).patWritten = s.patWritten := by
  cases i with
  | enc sym => exact absurd rfl (noEnc sym)
  | packclr off color =>
    rw [effect, packColor_outside]
    exact ⟨rfl, rfl⟩
  | _ => exact ⟨rfl, rfl⟩

end Sys2Proof.Machine

/-! ## The statements -/

namespace Sys2Proof

open Sys2Proof.Machine

/-- Settles O18: PACKRST's effect is a loop that writes the addresses below `RESET_BYTES`. -/
theorem packrstZeroesResetRegion : Obligations.PackrstZeroesResetRegion :=
  fun s => ⟨(packReset s).fb, exec_effect .packrst s, memRead_packReset s⟩

/-- Settles O19: a slot that fits is written pattern by pattern, one that does not is refused before the first write. -/
theorem packclrWritesPatterns : Obligations.PackclrWritesPatterns := by
  refine fun off color s hc => ⟨fun fits => ⟨_, exec_packclr_fits color fits, fun k hk t ht => ?_, fun a => ?_⟩,
    exec_packclr_refused color⟩
  · rw [memRead_writePatterns_slot hc _ _ _ hk ht, pairIndex_eq_ofNat]
  · exact memRead_writePatterns_outside hc color s.fb

/-- Settles O20: the last LED's slot ends with the buffer, so its base fits and every larger offset is refused. -/
theorem packclrLargestOffset : Obligations.PackclrLargestOffset := by
  refine fun off color s hc => ⟨?_, fun h => exec_packclr_refused color (packclr_beyond_last hc h)⟩
  rintro rfl
  have ⟨_, _, _, leds, _⟩ := hc
  have last := ledBase_last hc
  have base := toNat_ledBase hc (Nat.sub_one_lt_of_lt leds)
  obtain ⟨writes, -⟩ := packclrWritesPatterns (BitVec.ofNat 32 (s.cfg.ledBase (s.cfg.N - 1))) color s hc
  rw [base, last] at writes
  exact writes le_rfl

/-- Settles O21: after `n` writes the first `n` bytes of the LED stand at the offset, in order. -/
theorem packclrWritesAscending : Obligations.PackclrWritesAscending := by
  intro off color s n hc fits hn a
  rw [packclr_writes_fb color hc fits hn, memRead_memWriteSeq, List.length_take, ledBytes_length hc, Nat.min_eq_left hn]
  refine ite_congr rfl (fun inside => ?_) fun _ => rfl
  rw [List.getElem?_take_of_lt (by omega)]

/-- Settles O22: the frame is that of the colors PACKFRM reads, a written entry being read as its word. -/
theorem packfrmWritesFrame : Obligations.PackfrmWritesFrame :=
  fun s hc => ⟨_, mapColor s, exec_packfrm s, fun _ _ _ => mapColor_written, frameHolds_packFrame hc,
    fun _ => memRead_packFrame_beyond hc⟩

/-- Settles O23: after PACKRST the PACKCLRs write LED by LED what PACKFRM's loop writes. -/
theorem packfrmIsPackrstThenPackclrs : Obligations.PackfrmIsPackrstThenPackclrs := by
  intro s col hc written
  have reads : ∀ j < s.cfg.N,
      writePatterns s.cfg (s.cfg.ledBase j) (mapColor s j) = writePatterns s.cfg (s.cfg.ledBase j) (col j) :=
    fun j hj => by rw [mapColor_written (written j hj)]
  have leds : (packFrame s).fb =
      forUp s.cfg.N (fun j => writePatterns s.cfg (s.cfg.ledBase j) (col j)) (packReset s).fb :=
    forUp_congr reads _
  have packclrs := execAll_packclrs (s := packReset s) hc col le_rfl
  refine ⟨_, (execAll_cons (exec_effect .packrst s) _).trans packclrs, ?_⟩
  rw [exec_packfrm, leds]
  rfl

/-- Settles O24: each pattern in the buffer gives its pair of bits back, and the twelve pairs are the color. -/
theorem frameDeterminesColors : Obligations.FrameDeterminesColors :=
  fun _ _ _ hc h h' _ hj => color_mod_eq_of_pairIndex fun _ hk => h.pairIndex_eq hc h' hj hk

/-- Settles O35, by the effect of each operation on `FB`, `CM` and `PAT`; the rest is no part of any effect. -/
theorem operationFrame : Obligations.OperationFrame := by
  intro i s t run
  have core := exec_onlyCore run
  obtain rfl := exec_next run
  exact ⟨fun noPackclr noPackrst noPackfrm noBuild => effect_fb noPackclr noPackrst noPackfrm noBuild s,
    fun noUpdmap noBuild => effect_cm noUpdmap noBuild s, fun noEnc => effect_pat noEnc s, core.cfg,
    effect_seq i s, core.lastTs, core.frameCounter, core.hostPhase, core.offered, core.fbRdata, core.cmRdata,
    core.patOut, core.busConfig, core.busPin, core.xfer, core.wire, core.inputs⟩

end Sys2Proof
end

section
/-! SUPPORT. The statements of spec/42_color_map.md: what UPDMAP writes (R52, R55, R56), the form of an entry (R54), and
how the map depends on the offset (R52 corner case 7, R54(a)). -/

namespace Sys2Proof.Machine

/-! ## One color (spec/42_color_map.md R52) -/

theorem colorIntensity_lt (val : Nat) : colorIntensity val < 256 := Nat.mod_lt _ (by decide)

/-- The intensity is truncated before it is shifted, so the channel shift loses no bit (spec/42_color_map.md R56). -/
theorem colorAt_toNat (N offset i : Nat) :
    (colorAt N offset i).toNat = colorIntensity (colorVal N offset i) * 2 ^ (8 * (colorVal N offset i % 3)) := by
  have intensity := colorIntensity_lt (colorVal N offset i)
  have shift : 8 * (colorVal N offset i % 3) ≤ 16 := by omega
  rw [colorAt, BitVec.toNat_ofNat, Nat.shiftLeft_eq, Nat.mod_eq_of_lt]
  calc _ ≤ 255 * 2 ^ 16 := Nat.mul_le_mul (by omega) (Nat.pow_le_pow_right (by decide) shift)
    _ < 2 ^ 32 := by decide

/-- A color with the mask written as in spec/42_color_map.md R56. -/
theorem colorAt_eq_mask (N offset i : Nat) :
    colorAt N offset i = BitVec.ofNat 32
      ((((i + offset) % N / 2) &&& 0xFF) <<< (8 * ((i + offset) % N % 3))) := by
  have mask : (i + offset) % N / 2 &&& 0xFF = (i + offset) % N / 2 % 256 := Nat.and_two_pow_sub_one_eq_mod _ 8
  rw [mask]
  rfl

/-- A color depends on offset and index through `val` alone. -/
theorem colorAt_congr {N o o' i i' : Nat} (h : colorVal N o i = colorVal N o' i') : colorAt N o i = colorAt N o' i' := by
  rw [colorAt, h, colorAt]

/-- Only the channel byte `val mod 3` of a color can be non-zero (spec/42_color_map.md R54(b)). -/
theorem colorAt_single_channel (N offset i : Nat) :
    (colorAt N offset i).toNat = (colorAt N offset i).toNat % 256 ∨
    (colorAt N offset i).toNat = (colorAt N offset i).toNat / 256 % 256 * 256 ∨
    (colorAt N offset i).toNat = (colorAt N offset i).toNat / 65536 * 65536 := by
  have intensity := colorIntensity_lt (colorVal N offset i)
  rw [colorAt_toNat]
  obtain channel | channel | channel : colorVal N offset i % 3 = 0 ∨ colorVal N offset i % 3 = 1 ∨
      colorVal N offset i % 3 = 2 := by omega
  all_goals
    rw [channel]
    omega

theorem colorAt_ne_zero_iff (N offset i : Nat) :
    colorAt N offset i ≠ 0#32 ↔ colorIntensity (colorVal N offset i) ≠ 0 := by
  rw [ne_eq, ← BitVec.toNat_inj, colorAt_toNat, BitVec.toNat_ofNat]
  simp

/-! ## Colors under a change of the offset (spec/42_color_map.md R52 corner case 7, R54(a)) -/

theorem colorAt_full_rotation (N offset i : Nat) : colorAt N (offset + N) i = colorAt N offset i :=
  colorAt_congr (by rw [colorVal, ← Nat.add_assoc, Nat.add_mod_right, colorVal])

theorem colorAt_succ_offset (N offset i : Nat) : colorAt N (offset + 1) i = colorAt N offset (i + 1) :=
  colorAt_congr (by rw [colorVal, colorVal, Nat.add_right_comm, Nat.add_assoc])

/-- The index `N` stands for index 0: the color that leaves index 0 comes back at the other end. -/
theorem colorAt_index_N (N offset : Nat) : colorAt N offset N = colorAt N offset 0 :=
  colorAt_congr (by rw [colorVal, Nat.add_mod_left, colorVal, Nat.zero_add])

/-! ## The map (spec/42_color_map.md R52) -/

theorem exec_updmap (offset : Word) (s : State) :
    exec (.updmap offset) s = .next { completed s with cm := (updateMap offset s).cm } := exec_effect _ s

/-- The entries of a strip after UPDMAP. -/
theorem memRead_exec_updmap {offset : Word} {s t : State} (run : exec (.updmap offset) s = .next t) {i : Nat}
    (hi : i < s.cfg.N) : memRead t.cm i = some (colorAt s.cfg.N offset.toNat i) := by
  obtain rfl := exec_next run
  exact (memRead_updateMap offset s i).trans (if_pos hi)

/-- After a full strip rotation UPDMAP's loop makes the same writes (spec/42_color_map.md R54(a)). -/
theorem updateMap_full_rotation {offset offset' : Word} {s : State} (h : offset'.toNat = offset.toNat + s.cfg.N) :
    updateMap offset' s = updateMap offset s := by
  simp only [updateMap, h, colorAt_full_rotation]

end Sys2Proof.Machine

/-! ## The statements -/

namespace Sys2Proof

open Sys2Proof.Machine

/-- Settles O25: UPDMAP's loop writes `Color(N, offset, i)` at every index below `N` and nowhere else. -/
theorem updmapComputesColors : Obligations.UpdmapComputesColors := by
  refine fun offset s => ⟨_, exec_updmap offset s, fun i => ?_⟩
  rw [memRead_updateMap, colorAt_eq_mask]

/-- Settles O26: an entry is one intensity below 256, shifted to one of the three channel bytes. -/
theorem mapEntriesSingleChannel : Obligations.MapEntriesSingleChannel :=
  fun _ _ _ run i hi => ⟨_, memRead_exec_updmap run hi, colorAt_low _ _ i, colorAt_single_channel _ _ i,
    colorAt_ne_zero_iff _ _ i⟩

/-- Settles O27: the two maps are written by the same loop, and BUILD packs the map that UPDMAP leaves. -/
theorem fullRotationRestoresMap : Obligations.FullRotationRestoresMap := by
  intro offset offset' s h
  have sameMap := updateMap_full_rotation h
  constructor <;> rw [exec_effect, exec_effect]
  · rw [effect, effect, sameMap]
  · rw [effect, effect, buildFrame, buildFrame, sameMap]

/-- Settles O28: raising the offset raises `val` as raising the index does, and index `N` wraps to index 0. -/
theorem offsetMovesColorsDown : Obligations.OffsetMovesColorsDown := by
  intro offset offset' s t t' hc h run run'
  obtain ⟨-, -, -, leds, -⟩ := hc
  have moved : ∀ i < s.cfg.N, memRead t'.cm i = some (colorAt s.cfg.N offset.toNat (i + 1)) := fun i hi => by
    rw [memRead_exec_updmap run' hi, h, colorAt_succ_offset]
  refine ⟨fun i hi => ?_, ?_⟩
  · rw [moved i (by omega), memRead_exec_updmap run hi]
  · rw [moved _ (Nat.sub_one_lt_of_lt leds), Nat.sub_add_cancel leds, colorAt_index_N, memRead_exec_updmap run leds]

end Sys2Proof
end

section
/-! SUPPORT. The statements of spec/43_composite_system.md: BUILD (R57), NOP (R58), the reserved opcode (R60), and the
frame that a tick with a blocking transport puts on the wire (spec/60_exceptions.md R73, R76). -/

namespace Sys2Proof.Machine

/-! ## The frame as bytes (spec/20_memory.md R29) -/

theorem fbBytes_pos {c : Config} (hc : c.CoreOK) : 0 < c.fbBytes := by
  obtain ⟨-, -, -, -, hreset, -⟩ := hc
  exact Nat.add_pos_left hreset _

theorem frameBytes_length {c : Config} (hc : c.CoreOK) (col : Nat → Word) :
    (frameBytes c col).length = c.fbBytes := by
  simp [frameBytes, Config.fbBytes, List.length_flatMap, ledBytes_length hc, Nat.mul_comm]

theorem frameBytes_reset {c : Config} (col : Nat → Word) {a : Nat} (ha : a < c.resetBytes) :
    (frameBytes c col)[a]? = some 0x00#8 := by
  rw [frameBytes, List.getElem?_append_left (by rwa [List.length_replicate]), List.getElem?_replicate_of_lt ha]

theorem frameBytes_slot {c : Config} (hc : c.CoreOK) (col : Nat → Word) {j k t : Nat} (hj : j < c.N) (hk : k < 12)
    (ht : t < c.patBytes) :
    (frameBytes c col)[c.ledBase j + c.patBytes * k + t]? = (symbolEncoder c (pairIndex (col j) k))[t]? := by
  have inSlot := slot_lt_bytesPerLed hk ht
  obtain ⟨low, high⟩ := layout_range hj hk ht
  obtain ⟨led, byte⟩ := slot_div_mod (bytesPerLed_pos hc) j inSlot
  have place : c.ledBase j + c.patBytes * k + t - c.resetBytes = c.bytesPerLed * j + (c.patBytes * k + t) := by
    unfold Config.ledBase
    omega
  have inside : c.bytesPerLed * j + (c.patBytes * k + t) < c.N * c.bytesPerLed := by
    rw [Nat.mul_comm c.N]
    unfold Config.fbBytes at high
    omega
  rw [frameBytes, List.getElem?_append_right (by rwa [List.length_replicate]), List.length_replicate, place,
    getElem?_flatMap_range (bytesPerLed_pos hc) c.N (fun _ _ => ledBytes_length hc _), if_pos inside, led, byte,
    ledBytes_slot hc _ hk ht]

/-- A frame in the buffer is read address by address. -/
theorem FrameHolds.memRead_eq {s : State} {col : Nat → Word} (hc : s.cfg.CoreOK) (h : FrameHolds s col) {a : Nat}
    (ha : a < s.cfg.fbBytes) : memRead s.fb a = (frameBytes s.cfg col)[a]? := by
  obtain ⟨reset, leds⟩ := h
  by_cases inReset : a < s.cfg.resetBytes
  · rw [reset a inReset, frameBytes_reset col inReset]
  · obtain ⟨j, k, t, hj, hk, ht, rfl⟩ := exists_layout (Nat.not_lt.mp inReset) ha
    rw [leds j hj k hk t ht, frameBytes_slot hc col hj hk ht]

theorem FrameHolds.frameWritten {s : State} {col : Nat → Word} (hc : s.cfg.CoreOK) (h : FrameHolds s col) :
    FrameWritten s := by
  intro a ha
  rw [h.memRead_eq hc ha, List.getElem?_eq_getElem (by rwa [frameBytes_length hc])]
  rfl

/-- Only the colors of the LEDs that exist matter. -/
theorem FrameHolds.congr {s : State} {col col' : Nat → Word} (h : FrameHolds s col)
    (same : ∀ j < s.cfg.N, col j = col' j) : FrameHolds s col' := by
  obtain ⟨reset, leds⟩ := h
  refine ⟨reset, fun j hj k hk t ht => ?_⟩
  rw [leds j hj k hk t ht, same j hj]

/-! ## BUILD (spec/43_composite_system.md R57) -/

theorem exec_build (offset : Word) (s : State) :
    exec (.build offset) s = .next { completed s with
      cm := (updateMap offset s).cm, fb := (buildFrame offset s).fb, draws := s.draws + s.cfg.N } :=
  exec_effect _ s

/-- PACKFRM after UPDMAP reads the generated colors. -/
theorem mapColor_updateMap (offset : Word) {s : State} {j : Nat} (hj : j < s.cfg.N) :
    mapColor (updateMap offset s) j = colorAt s.cfg.N offset.toNat j :=
  mapColor_written ((memRead_updateMap offset s j).trans (if_pos hj))

/-- After BUILD the frame of the generated colors stands in the buffer. -/
theorem frameHolds_buildFrame {s : State} (hc : s.cfg.CoreOK) (offset : Word) :
    FrameHolds (buildFrame offset s) (colorAt s.cfg.N offset.toNat) :=
  (frameHolds_packFrame (s := updateMap offset s) hc).congr fun _ => mapColor_updateMap (s := s) offset

theorem memRead_buildFrame {s : State} (hc : s.cfg.CoreOK) (offset : Word) {a : Nat} (ha : a < s.cfg.fbBytes) :
    memRead (buildFrame offset s).fb a = (frameBytes s.cfg (colorAt s.cfg.N offset.toNat))[a]? :=
  (frameHolds_buildFrame hc offset).memRead_eq (s := buildFrame offset s) hc ha

/-- Canonical memories of one space that agree at its keys are equal data. -/
theorem memory_ext_below {α : Type} {m m' : List (Nat × α)} {n : Nat} (wf : Memory.wf m) (wf' : Memory.wf m')
    (below : Memory.below m n) (below' : Memory.below m' n) (agree : ∀ a < n, memRead m a = memRead m' a) :
    m = m' := by
  refine memory_ext wf wf' fun a => ?_
  by_cases ha : a < n
  · exact agree a ha
  · have beyond := Nat.not_lt.mp ha
    rw [memRead_eq_none_of_below below beyond, memRead_eq_none_of_below below' beyond]

/-- UPDMAP writes every entry, so nothing is left of the map before it. -/
theorem updateMap_cm_eq {s s' : State} (h : Inv s) (h' : Inv s') (cfg : s'.cfg = s.cfg) (offset : Word) :
    (updateMap offset s).cm = (updateMap offset s').cm := by
  refine memory_ext_below (n := s.cfg.N) (forUp_memWrite_wf _ _ h.cmWf) (forUp_memWrite_wf _ _ h'.cmWf)
    (forUp_memWrite_below _ le_rfl h.cmBelow) (cfg ▸ forUp_memWrite_below _ le_rfl h'.cmBelow) fun i hi => ?_
  rw [memRead_updateMap, memRead_updateMap, cfg, if_pos hi, if_pos hi]

/-- BUILD writes every byte, so nothing is left of the buffer before it. -/
theorem buildFrame_fb_eq {s s' : State} (h : Inv s) (h' : Inv s') (cfg : s'.cfg = s.cfg) (offset : Word) :
    (buildFrame offset s).fb = (buildFrame offset s').fb := by
  have below : Memory.below (buildFrame offset s').fb s'.cfg.fbBytes :=
    packFrame_below (s := updateMap offset s') h'.config h'.fbBelow
  refine memory_ext_below (n := s.cfg.fbBytes) (packFrame_wf (s := updateMap offset s) h.fbWf)
    (packFrame_wf (s := updateMap offset s') h'.fbWf)
    (packFrame_below (s := updateMap offset s) h.config h.fbBelow) (cfg ▸ below) fun a ha => ?_
  rw [memRead_buildFrame h.config offset ha, memRead_buildFrame h'.config offset (by rwa [cfg]), cfg]

/-! ## The reserved opcode (spec/43_composite_system.md R60) -/

theorem exec_reserved7 (s : State) :
    exec .reserved7 s = .next { completed s with status := (s.status &&& 0b110#3) ||| 0b100#3 } := by
  rw [exec_effect, effect, ← clearBusy_setError_reservedOp 7#3, clearBusy_setError_setBusy]
  rfl

/-- An operation does not see that another has completed before it. -/
theorem exec_complete (i : Instr) (s : State) : exec i (complete s) = exec i s := by
  rw [exec_effect, exec_effect, complete_effect_complete]

/-! ## A transfer under a blocking transport (spec/60_exceptions.md R73) -/

/-- A whole transfer: with the last byte it is over. -/
theorem repeatOp_xferRead_all {s : State} {length : Nat} {held : FrameBuf} {byte : Nat → Byte} (pos : 0 < length)
    (hx : s.xfer = some { next := 0, length := length, held := held })
    (hm : ∀ a < length, memRead s.fb a = some (byte a)) :
    repeatOp xferRead length s =
      { s with wire := s.wire ++ (List.range length).map byte, xfer := none, draws := s.draws + length } := by
  obtain ⟨n, rfl⟩ := Nat.exists_add_one_eq.mpr pos
  have last := xferRead_written (s := { s with
      wire := s.wire ++ (List.range n).map byte, xfer := some { next := n, length := n + 1, held := held }
      draws := s.draws + n }) rfl (hm n n.lt_succ_self)
  rw [repeatOp_succ', repeatOp_xferRead hx hm n n.lt_succ_self, last]
  simp [List.range_succ, Nat.add_assoc]

/-- A submission to a blocking transport with the core idle puts the bytes that stand in the buffer on the wire. -/
theorem startTransfer_blocking {s : State} {bs : List Byte} (pos : 0 < bs.length) (blocking : s.cfg.blocking = true)
    (ready : busyBit s.status = false) (hm : ∀ a < bs.length, memRead s.fb a = bs[a]?) :
    startTransfer bs.length s =
      { s with wire := s.wire ++ bs, xfer := none, draws := s.draws + bs.length } := by
  have written : ∀ a < bs.length, memRead s.fb a = some (bs.getD a 0#8) := fun a ha => by
    rw [hm a ha, List.getD_eq_getElem?_getD, List.getElem?_eq_getElem ha, Option.getD_some]
  have bytes : (List.range bs.length).map (bs.getD · 0#8) = bs := List.ext_getElem (by simp) (by simp +contextual)
  have begun : beginTransfer bs.length s = { s with xfer := some { next := 0, length := bs.length, held := [] } } :=
    if_neg pos.ne'
  have sent := repeatOp_xferRead_all (s := { s with xfer := some { next := 0, length := bs.length, held := [] } })
    pos rfl written
  rw [startTransfer, if_pos blocking, if_pos (cmdReady_eq_true.mpr ready), begun, sent, bytes]

/-! ## One tick (spec/60_exceptions.md R76) -/

/-- The state in which the tick calls the transport: BUILD with the frame counter has completed, and only the end of
the tick is still to come. -/
def tickBuilt (now : BitVec 32) (rest : List Event) (s : State) : State :=
  { complete (buildFrame s.frameCounter s) with
    cmdDone := false, inputs := .endTick now true :: rest, hostPhase := .transmitting, offered := none }

theorem step_poll_fires {s : State} {now : BitVec 32} {ok : Bool} {rest : List Event} (hc : s.cfg.CoreOK)
    (hin : s.inputs = .poll now ok :: rest) (idle : s.hostPhase = .idle)
    (due : s.cfg.intervalMs ≤ elapsed now s.lastTs) :
    step s = .next { s with
      cmdDone := false, hostPhase := .transmitting
      inputs := tick s.cfg s.frameCounter ok ++ .endTick now ok :: rest } := by
  rw [step_cons hc hin]
  exact congrArg _ (if_pos ⟨idle, decide_eq_true due⟩)

theorem step_command_build {s : State} {offset : Word} {rest : List Event} (hc : s.cfg.CoreOK)
    (ready : busyBit s.status = false) (free : s.xfer = none)
    (hin : s.inputs = .command (encode (.build offset)) :: rest) :
    step s = .next { complete (buildFrame offset s) with inputs := rest, offered := none } := by
  rw [step_command_atomic hc ready hin (atomicHere_iff.mpr (.inl free)), decodeWord_encode, exec_effect]
  rfl

theorem step_endTick {s : State} {now : BitVec 32} {rest : List Event} (hc : s.cfg.CoreOK)
    (hin : s.inputs = .endTick now true :: rest) :
    step s = .next { s with
      inputs := rest, cmdDone := false, frameCounter := s.frameCounter + 1#32, lastTs := now, hostPhase := .idle } := by
  rw [step_cons hc hin]
  rfl

/-- A tick whose submission is over in its own step, or leaves a background transfer: four steps, which add counter and
timestamp to what the submission leaves. -/
theorem run_tick {s t : State} {now : BitVec 32} {rest : List Event} {bus : BusConfig}
    (hin : s.inputs = .poll now true :: rest) (hc : s.cfg.CoreOK) (idle : s.hostPhase = .idle)
    (due : s.cfg.intervalMs ≤ elapsed now s.lastTs) (ready : busyBit s.status = false) (free : s.xfer = none)
    (hbus : s.busConfig = some bus) (fits : s.cfg.fbBytes ≤ bus.maxXfer) (hpin : s.busPin.isSome = true)
    (submitted : startTransfer s.cfg.fbBytes (tickBuilt now rest s) = t)
    (inputs : t.inputs = .endTick now true :: rest) :
    Sys2Proof.core.run 4 s = .next { t with
      inputs := rest, cmdDone := false, frameCounter := t.frameCounter + 1#32, lastTs := now, hostPhase := .idle } := by
  obtain ⟨pin, hpin⟩ := Option.isSome_iff_exists.mp hpin
  have cfg : t.cfg = s.cfg := submitted ▸ startTransfer_cfg _ _
  have poll := step_poll_fires hc hin idle due
  have build := step_command_build (s := { s with
      cmdDone := false, hostPhase := .transmitting
      inputs := tick s.cfg s.frameCounter true ++ .endTick now true :: rest }) hc ready free rfl
  have submission := step_transfer_starts (s := { complete (buildFrame s.frameCounter s) with
      hostPhase := .transmitting, offered := none }) hc (.endTick now true :: rest) hbus hpin free fits le_rfl
  have transfer := submission.trans (congrArg Host.Outcome.next submitted)
  have lastStep : Sys2Proof.core.run 4 s = Sys2Proof.core.step t := calc
    Sys2Proof.core.run 4 s = Sys2Proof.core.run 3 _ := run_succ (M := Sys2Proof.core) 3 poll
    _ = Sys2Proof.core.run 2 _ := run_succ (M := Sys2Proof.core) 2 build
    _ = Sys2Proof.core.run 1 t := run_succ (M := Sys2Proof.core) 1 transfer
    _ = Sys2Proof.core.step t := run_one (M := Sys2Proof.core) t
  exact lastStep.trans (step_endTick (cfg ▸ hc) inputs)

end Sys2Proof.Machine

/-! ## The statements -/

namespace Sys2Proof

open Sys2Proof.Machine

/-- Settles O29: UPDMAP's map, and over it PACKFRM's frame of the colors just generated. -/
theorem buildClosedForm : Obligations.BuildClosedForm := by
  intro offset s hc
  obtain ⟨reset, leds⟩ := frameHolds_buildFrame hc offset
  refine ⟨_, _, exec_build offset s, fun i => ?_, reset, fun j hj k hk t ht w hw => ?_,
    fun a => memRead_packFrame_beyond (s := updateMap offset s) hc⟩
  · rw [memRead_updateMap, colorAt_eq_mask]
  · rw [memRead_updateMap, if_pos hj, Option.some.injEq] at hw
    rw [← hw]
    refine (leds j hj k hk t ht).trans ?_
    rw [pairIndex_eq_ofNat, Nat.mod_eq_of_lt (colorAt_low _ _ _)]
    rfl

/-- Settles O31: BUILD writes every entry and every byte there is, with values that depend on the offset only. -/
theorem buildForgetsHistory : Obligations.BuildForgetsHistory := by
  intro offset s s' t t' h h' cfg run run'
  obtain rfl := exec_next run
  obtain rfl := exec_next run'
  exact ⟨updateMap_cm_eq h h' cfg offset, buildFrame_fb_eq h h' cfg offset,
    (frameHolds_buildFrame h.config offset).frameWritten h.config, mapWritten_updateMap offset s⟩

/-- Settles O53: the blocking submission reads the frame that BUILD has just left in the buffer, byte by byte. -/
theorem tickEmitsExactFrame : Obligations.TickEmitsExactFrame := by
  intro s now rest bus hin hc idle due ready free blocking hbus fits hpin
  have length := frameBytes_length hc (colorAt s.cfg.N s.frameCounter.toNat)
  have submitted := startTransfer_blocking (s := tickBuilt now rest s) (length ▸ fbBytes_pos hc) blocking
    (busyBit_clearBusy s.status) fun a ha => memRead_buildFrame hc s.frameCounter (length ▸ ha)
  rw [length] at submitted
  refine ⟨_, run_tick hin hc idle due ready free hbus fits hpin submitted rfl, rfl, rfl, rfl, rfl, rfl, rfl, ?_⟩
  exact List.length_append.trans (congrArg _ length)

/-- Settles O30: the completion between the two operations leaves no trace. -/
theorem buildIsUpdmapThenPackfrm : Obligations.BuildIsUpdmapThenPackfrm := by
  intro offset s
  have packfrm : exec .packfrm (complete (updateMap offset s)) = .next (complete (buildFrame offset s)) :=
    (exec_complete _ _).trans (exec_effect _ _)
  rw [execAll_cons (exec_effect (.updmap offset) s), effect, execAll_cons packfrm, exec_effect]
  rfl

/-- Settles O32: NOP's effect is none, and acceptance sets BUSY. -/
theorem nopChangesNothing : Obligations.NopChangesNothing :=
  ⟨exec_effect .nop, fun s => (startOperation_atWork .nop s).busy, decodeWord_op0⟩

/-- Settles O33: no operation reads the error bits, so ERR_RSVD is only carried along. -/
theorem reservedOpcodeRecorded : Obligations.ReservedOpcodeRecorded := by
  refine ⟨exec_reserved7, fun i s t u reserved run => ?_, decodeWord_op7⟩
  rw [exec_reserved7] at reserved
  obtain rfl := Host.Outcome.next.inj reserved
  exact errorBitsNotRead i 0b100#3 (complete s) u ((exec_complete i s).trans run)

/-- Settles O34: every operation ends with its completion. -/
theorem everyOperationCompletes : Obligations.EveryOperationCompletes :=
  fun i s => ⟨_, exec_effect i s, busyBit_clearBusy _, rfl⟩

end Sys2Proof
end

section
/-! SUPPORT. The statements of spec/60_exceptions.md: the error table (R64), the transport (R73), the scheduler (R75 to
R78), HOST's duties (R79) and what goes on with nothing to do (R82). -/

namespace Sys2Proof.Machine

/-! ## The error bits (spec/60_exceptions.md R64) -/

@[simp] theorem boundsBit_clearBusy (st : BitVec 3) : boundsBit (clearBusy st) = boundsBit st :=
  have ⟨_, ⟨bounds, _⟩, _⟩ := errBits_kept st (.bounds 0)
  bounds

@[simp] theorem rsvdBit_clearBusy (st : BitVec 3) : rsvdBit (clearBusy st) = rsvdBit st :=
  have ⟨_, ⟨_, rsvd⟩, _⟩ := errBits_kept st (.bounds 0)
  rsvd

@[simp] theorem boundsBit_setError (e : CoreError) (st : BitVec 3) :
    boundsBit (setError e st) = true ↔ boundsBit st = true ∨ ∃ off, e = .bounds off := by
  cases e <;> simp [setError, boundsBit]

@[simp] theorem rsvdBit_setError (e : CoreError) (st : BitVec 3) :
    rsvdBit (setError e st) = true ↔ rsvdBit st = true ∨ ∃ op, e = .reservedOp op := by
  cases e <;> simp [setError, rsvdBit]

/-- An operation that records no error leaves STATUS to acceptance and completion. -/
theorem effect_status_errorFree {i : Instr} {s : State} (h : i.errorFree s.cfg = true) :
    (effect i s).status = s.status := by
  cases i with
  | packclr off color =>
    have fits : fitsBuffer s.cfg off.toNat = true := h
    rw [effect, packColor, if_pos fits]
    rfl
  | reserved7 => cases h
  | _ => rfl

/-- The two rows of the error table. -/
theorem errorFree_eq_false_iff {c : Config} {i : Instr} :
    i.errorFree c = false ↔
      (∃ off color, i = .packclr off color ∧ c.fbBytes < off.toNat + c.bytesPerLed) ∨ i = .reserved7 := by
  cases i <;> simp [Instr.errorFree]

/-! ## The scheduler (spec/60_exceptions.md R75 to R77) -/

theorem pollScheduler_fires_iff {s : State} (idle : s.hostPhase = .idle) (now : BitVec 32) (ok : Bool) :
    (pollScheduler now ok s).hostPhase = .transmitting ↔ s.cfg.intervalMs ≤ elapsed now s.lastTs := by
  by_cases due : s.cfg.intervalMs ≤ elapsed now s.lastTs <;> simp [pollScheduler, fires, idle, due]

theorem pollScheduler_early {s : State} {now : BitVec 32} (early : elapsed now s.lastTs < s.cfg.intervalMs)
    (ok : Bool) : pollScheduler now ok s = s :=
  if_neg fun ⟨_, due⟩ => Nat.not_le_of_lt early (of_decide_eq_true due)

theorem elapsed_unwrapped {now last : BitVec 32} (h : last.toNat ≤ now.toNat) :
    elapsed now last = now.toNat - last.toNat := if_pos h

theorem elapsed_wrapped {now last : BitVec 32} (h : now.toNat < last.toNat) :
    elapsed now last = (2 ^ 32 - 1 - last.toNat) + now.toNat := if_neg (Nat.not_le_of_lt h)

/-- Across a wrap the formula is one short of the modular distance (spec/93_implementation_defined.md U8). -/
theorem elapsed_wrapped_succ {now last : BitVec 32} (h : now.toNat < last.toNat) :
    elapsed now last + 1 = (now - last).toNat := by
  have hlast := last.isLt
  rw [elapsed_wrapped h, BitVec.toNat_sub]
  omega

theorem elapsed_le (now last : BitVec 32) : elapsed now last ≤ 2 ^ 32 - 1 := by
  have hnow := now.isLt
  have hlast := last.isLt
  rcases Nat.lt_or_ge now.toNat last.toNat with wrapped | unwrapped
  · rw [elapsed_wrapped wrapped]
    omega
  · rw [elapsed_unwrapped unwrapped]
    omega

/-! ## With the sequencer idle and no input (spec/60_exceptions.md R73, R82) -/

/-- Taking no event only ends the pulse of `cmd_done`. -/
theorem takeEvent_nil {s : State} (hin : s.inputs = []) : takeEvent [] s = { s with cmdDone := false } := by
  rw [takeEvent, ← hin]

theorem step_idleCore {s : State} (hc : s.cfg.CoreOK) (hin : s.inputs = []) (idle : s.seq = none) :
    step s = .next (xferRead { s with cmdDone := false }) := by
  rw [step_nil hc hin, takeEvent_nil hin]
  exact congrArg _ (quiet_idleCore (s := { s with cmdDone := false }) idle)

/-- With no input and an idle core every step is one read of the transport. -/
theorem run_idleCore (n : Nat) {s : State} (hc : s.cfg.CoreOK) (hin : s.inputs = []) (idle : s.seq = none)
    (noPulse : s.cmdDone = false) : Sys2Proof.core.run n s = .next (repeatOp xferRead n s) := by
  induction n generalizing s with
  | zero => rfl
  | succ n ih =>
    have same : { s with cmdDone := false } = s := by rw [← noPulse]
    have first : step s = .next (xferRead s) := by rw [step_idleCore hc hin idle, same]
    have read := xferRead_onlyTransfer s
    exact (run_succ (M := Sys2Proof.core) n first).trans
      (ih (read.cfg ▸ hc) (read.inputs.trans hin) (read.seq.trans idle) (read.cmdDone.trans noPulse))

/-- The same from any state, the first of the steps ending the pulse of `cmd_done`. -/
theorem run_idleCore_pos {n : Nat} (pos : 0 < n) {s : State} (hc : s.cfg.CoreOK) (hin : s.inputs = [])
    (idle : s.seq = none) : Sys2Proof.core.run n s = .next (repeatOp xferRead n { s with cmdDone := false }) := by
  obtain ⟨n, rfl⟩ := Nat.exists_add_one_eq.mpr pos
  have read := xferRead_onlyTransfer { s with cmdDone := false }
  have core : (xferRead { s with cmdDone := false }).cfg.CoreOK := by rwa [read.cfg]
  exact (run_succ (M := Sys2Proof.core) n (step_idleCore hc hin idle)).trans
    (run_idleCore n core (read.inputs.trans hin) (read.seq.trans idle) read.cmdDone)

/-! ## What HOST's actions answer (spec/60_exceptions.md R73, R79) -/

/-- A command always answers, whatever the core and the transport are doing. -/
theorem issueCommand_answers (w : CmdWord) (s : State) : ∃ t, issueCommand w s = .next t := by
  unfold issueCommand
  split
  · split
    · exact ⟨_, exec_effect _ _⟩
    · exact ⟨_, rfl⟩
  · exact ⟨_, rfl⟩

/-- A submission that keeps within the transport's and the buffer's limits answers, whether it succeeds or not. -/
theorem transferCall_answers {s : State} {length pin : Nat} {bus : BusConfig} (ok : Bool)
    (hbus : s.busConfig = some bus) (hpin : s.busPin = some pin) (free : s.xfer = none) (short : length ≤ bus.maxXfer)
    (fits : length ≤ s.cfg.fbBytes) : ∃ t, transferCall length ok s = .next t := by
  cases ok with
  | false => exact ⟨s, rfl⟩
  | true =>
    exact ⟨startTransfer length s,
      by simp [transferCall, hbus, hpin, free, Nat.not_lt.mpr short, Nat.not_lt.mpr fits]⟩

theorem configureCall_first {s : State} (h : s.busConfig = none) :
    configureCall s = .next { s with busConfig := some { fSpi := s.cfg.fSpi, maxXfer := s.cfg.maxXfer } } :=
  if_neg (by simp [h])

theorem beginCall_first {s : State} (h : s.busPin = none) :
    beginCall s = .next { s with busPin := some s.cfg.pin } :=
  if_neg (by simp [h])

section SetUp

variable {s : State} (hc : s.cfg.CoreOK) (rest : List Event)
include hc

theorem step_configure_first (h : s.busConfig = none) :
    step { s with inputs := .configure :: rest } = .next { s with
      inputs := rest, cmdDone := false
      busConfig := some { fSpi := s.cfg.fSpi, maxXfer := s.cfg.maxXfer } } :=
  (step_withInputs_cons hc .configure rest).trans
    (configureCall_first (s := { s with inputs := rest, cmdDone := false }) h)

theorem step_beginPins_first (h : s.busPin = none) :
    step { s with inputs := .beginPins :: rest } = .next { s with
      inputs := rest, cmdDone := false, busPin := some s.cfg.pin } :=
  (step_withInputs_cons hc .beginPins rest).trans
    (beginCall_first (s := { s with inputs := rest, cmdDone := false }) h)

end SetUp

/-- An action inside HOST's duties answers; the frame of a well-formed configuration fits one transfer
(spec/70_reset_and_hazards.md R91). -/
theorem handleEvent_answers {e : Event} {s : State} (rest : List Event) (hc : s.cfg.OK) (duty : EventDuty e s) :
    ∃ t, handleEvent e (takeEvent rest s) = .next t := by
  cases e with
  | command w => exact issueCommand_answers w _
  | transfer length ok =>
    obtain ⟨rfl, -, -, free, hbus, hpin⟩ := duty
    obtain ⟨-, -, -, short⟩ := hc
    exact transferCall_answers (s := takeEvent rest s) ok hbus hpin free short le_rfl
  | readFb a =>
    obtain ⟨ha, -⟩ := duty
    exact ⟨_, if_pos ha⟩
  | readCm i =>
    obtain ⟨hi, -⟩ := duty
    exact ⟨_, if_pos hi⟩
  | configure => exact ⟨_, configureCall_first (s := takeEvent rest s) duty⟩
  | beginPins => exact ⟨_, beginCall_first (s := takeEvent rest s) duty⟩
  | _ => exact ⟨_, rfl⟩

/-! ## The bytes an operation stores (spec/41_frame_packer.md R47 to R51) -/

/-- PACKCLR that fits, by address: its LED's bytes are written, the others as they were. -/
theorem memRead_writePatterns_stores {c : Config} (hc : c.CoreOK) (off : Nat) (color : Word) (m : FrameBuf) (a : Nat) :
    (off ≤ a ∧ a < off + c.bytesPerLed → (memRead (writePatterns c off color m) a).isSome = true) ∧
    (¬ (off ≤ a ∧ a < off + c.bytesPerLed) → memRead (writePatterns c off color m) a = memRead m a) := by
  rw [memRead_writePatterns hc]
  refine ⟨fun inside => ?_, fun outside => if_neg outside⟩
  rw [if_pos inside, List.getElem?_eq_getElem (by rw [ledBytes_length hc]; omega)]
  rfl

/-- An operation has written the bytes its row names, and no other. -/
theorem memRead_effect {s : State} (hc : s.cfg.CoreOK) (i : Instr) (a : Nat) :
    (i.storesAt s.cfg a = true → (memRead (effect i s).fb a).isSome = true) ∧
    (i.storesAt s.cfg a = false → memRead (effect i s).fb a = memRead s.fb a) := by
  cases i with
  | packrst =>
    rw [effect, memRead_packReset]
    exact ⟨fun stored => by rw [if_pos (of_decide_eq_true stored)]; rfl, fun kept => if_neg (of_decide_eq_false kept)⟩
  | packclr off color =>
    rw [Instr.storesAt, decide_eq_true_iff, decide_eq_false_iff_not, effect]
    rcases packColor_cases off.toNat color s with ⟨fits, h⟩ | ⟨beyond, h⟩ <;> rw [h]
    · obtain ⟨inside, outside⟩ := memRead_writePatterns_stores hc off.toNat color s.fb a
      exact ⟨fun ⟨_, range⟩ => inside range, fun kept => outside fun range => kept ⟨fits, range⟩⟩
    · exact ⟨fun ⟨fits, _⟩ => absurd fits (Nat.not_le_of_lt beyond), fun _ => rfl⟩
  | packfrm =>
    exact ⟨fun stored => (frameHolds_packFrame hc).frameWritten (s := packFrame s) hc a (of_decide_eq_true stored),
      fun kept => memRead_packFrame_beyond hc (Nat.not_lt.mp (of_decide_eq_false kept))⟩
  | build o =>
    exact ⟨fun stored =>
        (frameHolds_buildFrame hc o).frameWritten (s := buildFrame o s) hc a (of_decide_eq_true stored),
      fun kept => memRead_packFrame_beyond (s := updateMap o s) hc (Nat.not_lt.mp (of_decide_eq_false kept))⟩
  | _ => exact ⟨nofun, fun _ => rfl⟩

/-! ## Complete frames (spec/41_frame_packer.md R50, spec/70_reset_and_hazards.md R87) -/

/-- PACKFRM and BUILD each rewrite every byte. -/
theorem rewritesFrame_singleton {c : Config} {i : Instr} (h : i = .packfrm ∨ ∃ o, i = .build o) :
    RewritesFrame c [i] := by
  intro a ha
  refine ⟨i, List.mem_singleton_self i, ?_⟩
  obtain rfl | ⟨o, rfl⟩ := h <;> exact decide_eq_true ha

/-- PACKRST rewrites the reset region and PACKLED `j` the slot of LED `j`: together the whole buffer. -/
theorem rewritesFrame_packleds {c : Config} (hc : c.CoreOK) (col : Nat → Word) :
    RewritesFrame c (.packrst :: (List.range c.N).map fun j => .packclr (BitVec.ofNat 32 (c.ledBase j)) (col j)) := by
  intro a ha
  by_cases inReset : a < c.resetBytes
  · exact ⟨.packrst, List.mem_cons_self, decide_eq_true inReset⟩
  · obtain ⟨j, k, t, hj, hk, ht, rfl⟩ := exists_layout (Nat.not_lt.mp inReset) ha
    have inSlot := slot_lt_bytesPerLed hk ht
    have fits := ledBase_fits c hj
    refine ⟨.packclr (BitVec.ofNat 32 (c.ledBase j)) (col j),
      List.mem_cons_of_mem _ (List.mem_map.mpr ⟨j, List.mem_range.mpr hj, rfl⟩), decide_eq_true ?_⟩
    rw [toNat_ledBase hc hj]
    omega

/-- LED by LED over a zero reset region the frame of `col` is written: it is PACKFRM's frame for a map that holds
`col`. -/
theorem frameHolds_leds {s : State} (hc : s.cfg.CoreOK) (col : Nat → Word) :
    FrameHolds { s with
      fb := forUp s.cfg.N (fun j => writePatterns s.cfg (s.cfg.ledBase j) (col j)) (packReset s).fb } col := by
  have reads : ∀ j < s.cfg.N,
      mapColor { s with cm := forUp s.cfg.N (fun j m => memWrite m j (col j)) s.cm } j = col j :=
    fun j hj => mapColor_written ((memRead_forUp_memWrite col _ _ _).trans (if_pos hj))
  have frame := (frameHolds_packFrame
    (s := { s with cm := forUp s.cfg.N (fun j m => memWrite m j (col j)) s.cm }) hc).congr reads
  rw [← forUp_congr fun j hj => congrArg (writePatterns s.cfg (s.cfg.ledBase j)) (reads j hj)]
  exact frame

/-- PACKLED `j` on a complete frame changes color `j` of it: the slots of two LEDs do not meet. -/
theorem FrameHolds.afterPackLed {s : State} {col : Nat → Word} (hc : s.cfg.CoreOK) (h : FrameHolds s col) (j : Nat)
    (color : Word) :
    FrameHolds { s with fb := writePatterns s.cfg (s.cfg.ledBase j) color s.fb }
      (fun i => if i = j then color else col i) := by
  obtain ⟨reset, leds⟩ := h
  refine ⟨fun a ha => ?_, fun i hi k hk t ht => ?_⟩
  · have below : s.cfg.resetBytes ≤ s.cfg.ledBase j := Nat.le_add_right _ _
    exact (memRead_writePatterns_outside hc color s.fb (.inl (Nat.lt_of_lt_of_le ha below))).trans (reset a ha)
  · dsimp only
    have inSlot : s.cfg.patBytes * k + t < s.cfg.bytesPerLed := slot_lt_bytesPerLed hk ht
    rcases Nat.lt_trichotomy i j with before | rfl | behind
    · have slots := ledBase_mono s.cfg (Nat.succ_le_of_lt before)
      rw [Nat.succ_eq_add_one, ledBase_succ] at slots
      rw [memRead_writePatterns_outside hc color s.fb (.inl (by omega)), if_neg before.ne]
      exact leds i hi k hk t ht
    · rw [if_pos rfl]
      exact memRead_writePatterns_slot hc _ color s.fb hk ht
    · have slots := ledBase_mono s.cfg (Nat.succ_le_of_lt behind)
      rw [Nat.succ_eq_add_one, ledBase_succ] at slots
      rw [memRead_writePatterns_outside hc color s.fb (.inr (by omega)), if_neg behind.ne']
      exact leds i hi k hk t ht

end Sys2Proof.Machine

/-! ## The statements -/

namespace Sys2Proof

open Sys2Proof.Machine

/-- Settles O36: only the two rows of the error table touch the error bits, each its own. -/
theorem errorsOnlyAsTabled : Obligations.ErrorsOnlyAsTabled := by
  intro i s t run
  rw [exec_next run, complete_status, boundsBit_clearBusy, rsvdBit_clearBusy]
  cases free : i.errorFree s.cfg with
  | true =>
    rw [effect_status_errorFree free]
    rw [← Bool.not_eq_false, errorFree_eq_false_iff, not_or] at free
    obtain ⟨noBounds, noReserved⟩ := free
    exact ⟨(or_iff_left noBounds).symm, (or_iff_left noReserved).symm⟩
  | false =>
    rcases errorFree_eq_false_iff.mp free with ⟨off, color, rfl, beyond⟩ | rfl
    · rcases packColor_cases off.toNat color s with ⟨fits, -⟩ | ⟨-, refused⟩
      · omega
      · simp [effect, refused, beyond]
    · simp [effect]

/-- Settles O50: the formula's two branches, and a poll from Idle that tests it. -/
theorem elapsedFormula : Obligations.ElapsedFormula :=
  ⟨fun now ok _ idle => pollScheduler_fires_iff idle now ok, fun now last =>
    ⟨elapsed_unwrapped, fun wrapped => ⟨elapsed_wrapped wrapped, elapsed_wrapped_succ wrapped⟩, elapsed_le now last⟩⟩

/-- Settles O52: the tick's submission leaves a background transfer at its first byte. -/
theorem tickSequence : Obligations.TickSequence := by
  intro s now rest bus hin hc idle due ready free background hbus fits hpin
  have submitted := startTransfer_nonblocking (s := tickBuilt now rest s) (fbBytes_pos hc) background
  exact ⟨_, exec_effect _ s, run_tick hin hc idle due ready free hbus fits hpin submitted rfl⟩

/-- Settles O54: each step with the core idle is one read, and the reads of a whole transfer go out in order. -/
theorem transferReadsInOrder : Obligations.TransferReadsInOrder := by
  refine ⟨fun s rest hc => ⟨step_withInputs_cons hc .xferRead rest, ?_, fun free => ?_⟩,
    fun s length held byte pos hx written =>
      ⟨repeatOp_xferRead_all pos hx written, fun hc idle hin => ?_⟩⟩
  · rintro idle pending l (rfl | rfl)
    · exact step_idleCore (s := { s with inputs := [] }) hc rfl idle
    · rw [step_awaitTransfer_pending hc rest pending]
      exact congrArg _ (quiet_idleCore idle)
  · rw [step_withInputs_cons hc]
    exact congrArg _ (if_pos (Option.isNone_iff_eq_none.mpr free))
  · rw [run_idleCore_pos pos hc hin idle]
    exact congrArg _ (repeatOp_xferRead_all (s := { s with cmdDone := false }) pos hx written)

/-- Settles O57: every action that HOST's duties allow answers. -/
theorem dutifulHostNeverStops : Obligations.DutifulHostNeverStops := by
  intro s e rest hc hin duty
  have ⟨core, _⟩ := hc
  rw [step_cons core hin]
  exact handleEvent_answers rest hc duty

/-- Settles O60, by the bytes each effect writes, and the layout in which LED slots do not meet. -/
theorem rebuildsLeaveCompleteFrame : Obligations.RebuildsLeaveCompleteFrame := by
  refine ⟨fun i s t a hc run => ?_, fun s t i hc rebuild run => ⟨?_, rewritesFrame_singleton rebuild⟩,
    fun s t col ops hc hops run => ?_, fun s t col j color hc holds hj run => ?_,
    fun s t offset ok hc run free hbus hpin => ?_⟩
  · obtain rfl := exec_next run
    exact memRead_effect hc i a
  · obtain rfl := exec_next run
    obtain rfl | ⟨o, rfl⟩ := rebuild
    · exact ⟨_, frameHolds_packFrame hc⟩
    · exact ⟨_, frameHolds_buildFrame hc o⟩
  · subst hops
    have leds := (execAll_cons (exec_effect .packrst s) _).trans
      (execAll_packclrs (s := packReset s) hc col le_rfl)
    obtain rfl := Host.Outcome.next.inj (leds.symm.trans run)
    exact ⟨frameHolds_leds hc col, rewritesFrame_packleds hc col⟩
  · have base := toNat_ledBase hc hj
    rw [exec_packclr_fits color (by rw [base]; exact ledBase_fits s.cfg hj), base] at run
    obtain rfl := Host.Outcome.next.inj run
    exact holds.afterPackLed hc j color
  · obtain rfl := exec_next run
    have ready : cmdReady (clearBusy s.status) = true := cmdReady_eq_true.mpr (busyBit_clearBusy _)
    exact ⟨⟨rfl, ready, ⟨_, frameHolds_buildFrame hc offset⟩, free, hbus, hpin⟩,
      fun _ _ _ => rewritesFrame_singleton (.inr ⟨offset, rfl⟩)⟩

/-- Settles O10: with the sequencer idle only the transport could move, and it has nothing to read. -/
theorem idleCoreKeepsState : Obligations.IdleCoreKeepsState := by
  intro s hc hin idle free
  rw [step_idleCore hc hin idle]
  simp [xferRead, free]

/-- Settles O51: such a poll does not fire. -/
theorem pollBeforeIntervalDoesNothing : Obligations.PollBeforeIntervalDoesNothing := by
  intro s now ok rest hc hin early
  rw [step_cons hc hin]
  exact congrArg _ (pollScheduler_early (s := takeEvent rest s) early ok)

/-- Settles O55: a failed call leaves the state alone, and the tick's end goes by HOST's policy. -/
theorem failedSubmission : Obligations.FailedSubmission := by
  intro s length now rest hc
  refine ⟨step_withInputs_cons hc (.transfer length false) rest, fun policy => ?_, fun uc ut policy => ?_⟩
  · rw [step_withInputs_cons hc]
    simp [handleEvent, endTick, policy]
  · rw [step_withInputs_cons hc]
    cases uc <;> simp [handleEvent, endTick, policy]

/-- Settles O59: each of the two calls is refused once its argument stands, and by the invariant the transport's limit
is `MAX_XFER`. -/
theorem transportSetUpOnce : Obligations.TransportSetUpOnce := by
  refine fun s rest hc => ⟨fun noBus noPin => ?_, fun again => ?_, fun again => ?_,
    fun timing inv hbus hpin free ok => ?_⟩
  · have configured := step_configure_first hc (.beginPins :: rest) noBus
    have begun := step_beginPins_first (s := { s with
      cmdDone := false, busConfig := some { fSpi := s.cfg.fSpi, maxXfer := s.cfg.maxXfer } }) hc rest noPin
    exact (run_succ (M := Sys2Proof.core) 1 configured).trans ((run_one (M := Sys2Proof.core) _).trans begun)
  · rw [step_withInputs_cons hc]
    exact if_pos (Option.isSome_iff_ne_none.mpr again)
  · rw [step_withInputs_cons hc]
    exact if_pos (Option.isSome_iff_ne_none.mpr again)
  · obtain ⟨bus, hbus⟩ := Option.ne_none_iff_exists'.mp hbus
    obtain ⟨pin, hpin⟩ := Option.ne_none_iff_exists'.mp hpin
    obtain ⟨-, -, short⟩ := timing
    obtain rfl := inv.busOk bus hbus
    rw [step_withInputs_cons hc]
    exact transferCall_answers (s := { s with inputs := rest, cmdDone := false }) ok hbus hpin free short le_rfl

end Sys2Proof
end

section
/-! SUPPORT. The statements of spec/70_reset_and_hazards.md: what a reader sees that races an operation (R86), what a
reset clears and leaves (R83, R84), and where a submission stops the run (R85). -/

namespace Sys2Proof.Machine

/-! ## The write pointer only rises (spec/10_state.md R21) -/

/-- The operation in progress writes no byte below this address any more: the write pointer in a phase that writes `FB`,
0 in phase `map`, which such a phase may follow, the end of the buffer where no byte is left to write. -/
def writeFloor (s : State) : Nat :=
  match s.seq with
  | some (.map _ _ _) => 0
  | some (.reset wp _) => wp
  | some (.packClr _ _ _ wp) => wp
  | some (.packLed _ _ _ wp) => wp
  | some .finish => s.cfg.fbBytes
  | some (.latch _) => s.cfg.fbBytes
  | none => s.cfg.fbBytes

/-- The counters are in range where the sequencer is at work (spec/10_state.md R21). -/
def CountersOK (s : State) : Prop := ∀ q, s.seq = some q → SequencerOK s.cfg q

theorem countersOK_idle {s : State} (h : s.seq = none) : CountersOK s := by simp [CountersOK, h]

theorem countersOK_atWork {s : State} {q : Sequencer} (h : s.seq = some q) (ok : SequencerOK s.cfg q) :
    CountersOK s := by
  simpa [CountersOK, h]

/-- From `s` to `t` the floor has not fallen, and a byte that has changed lies between the two floors. -/
structure Advance (s t : State) : Prop where
  counters : CountersOK t
  rises : writeFloor s ≤ writeFloor t
  between : ∀ a, memRead t.fb a = memRead s.fb a ∨ (writeFloor s ≤ a ∧ a < writeFloor t)

theorem Advance.refl {s : State} (counters : CountersOK s) : Advance s s :=
  ⟨counters, le_rfl, fun _ => .inl rfl⟩

theorem Advance.trans {s t u : State} (h : Advance s t) (h' : Advance t u) : Advance s u := by
  obtain ⟨-, rises, between⟩ := h
  obtain ⟨counters, rises', between'⟩ := h'
  refine ⟨counters, rises.trans rises', fun a => ?_⟩
  rcases between a with same | ⟨low, high⟩
  · rcases between' a with same' | ⟨low, high⟩
    · exact .inl (same'.trans same)
    · exact .inr ⟨rises.trans low, high⟩
  · exact .inr ⟨low, Nat.lt_of_lt_of_le high rises'⟩

/-- What stands at the middle of two advances stood there before, or stays: a byte below the floor has had its one
write, a byte at or above it has not. -/
theorem Advance.old_or_new {s t u : State} (h : Advance s t) (h' : Advance t u) (a : Nat) :
    memRead t.fb a = memRead s.fb a ∨ memRead t.fb a = memRead u.fb a := by
  rcases h.between a with same | ⟨-, written⟩
  · exact .inl same
  · rcases h'.between a with same | ⟨unwritten, -⟩
    · exact .inr same.symm
    · omega

/-- No byte is written. -/
theorem Advance.of_noWrite {s t : State} (counters : CountersOK t) (rises : writeFloor s ≤ writeFloor t)
    (fb : t.fb = s.fb) : Advance s t :=
  ⟨counters, rises, fun _ => .inl (by rw [fb])⟩

/-- The byte at the floor is written, and the floor lifted above it. -/
theorem Advance.of_write {s t : State} {wp : Nat} {b : Byte} (counters : CountersOK t) (floor : writeFloor s = wp)
    (lifted : wp < writeFloor t) (fb : t.fb = memWrite s.fb wp b) : Advance s t := by
  refine ⟨counters, floor ▸ lifted.le, fun a => ?_⟩
  by_cases here : a = wp
  · exact .inr ⟨by omega, by omega⟩
  · exact .inl (by rw [fb, memRead_memWrite_other _ _ here])

theorem startLed_fb (j : Nat) (s : State) : (startLed j s).fb = s.fb := by
  unfold startLed
  split <;> rfl

theorem countersOK_startLed (j : Nat) {s : State} (hc : s.cfg.CoreOK) : CountersOK (startLed j s) := by
  unfold startLed
  split
  · exact countersOK_atWork rfl ⟨by assumption, slotOK_first hc (ledBase_fits s.cfg (by assumption))⟩
  · exact countersOK_idle rfl

/-- Phase `colour` goes on at LED `j`; after the last LED that is the end of the buffer. -/
theorem writeFloor_startLed {j : Nat} {s : State} (hj : j ≤ s.cfg.N) :
    writeFloor (startLed j s) = s.cfg.ledBase j := by
  unfold startLed
  split
  · rfl
  · obtain rfl : j = s.cfg.N := by omega
    rfl

theorem slotOK_lt_slotEnd {c : Config} {base k wp : Nat} (h : SlotOK c base k wp) : wp < base + c.bytesPerLed := by
  obtain ⟨-, hk, -, below⟩ := h
  have : c.patBytes * (k + 1) ≤ c.patBytes * 12 := Nat.mul_le_mul_left _ hk
  unfold Config.bytesPerLed
  omega

theorem nextPair_pointer {c : Config} {base k wp k' wp' : Nat} (h : nextPair c base k wp = some (k', wp')) :
    wp' = wp + 1 := by
  unfold nextPair at h
  split at h
  · cases h; rfl
  · split at h
    · cases h; rfl
    · cases h

theorem microStep_idle {s : State} (h : s.seq = none) : microStep s = s := by
  rw [microStep, h]

/-- Each write of the operation in progress advances: it is at the floor, which it lifts. -/
theorem microStep_advance {s : State} (hc : s.cfg.CoreOK) (ok : CountersOK s) : Advance s (microStep s) := by
  have ⟨_, _, _, _, hreset, _⟩ := hc
  cases hq : s.seq with
  | none =>
    exact (microStep_idle hq).symm ▸ .refl ok
  | some q =>
    have hok := ok q hq
    cases q with
    | finish =>
      have floor : writeFloor s = s.cfg.fbBytes := by simp [writeFloor, hq]
      simp only [microStep, hq]
      exact .of_noWrite (countersOK_idle rfl) floor.le rfl
    | latch sym =>
      have floor : writeFloor s = s.cfg.fbBytes := by simp [writeFloor, hq]
      simp only [microStep, hq]
      exact .of_noWrite (countersOK_idle rfl) floor.le rfl
    | map offset i thenPack =>
      have floor : writeFloor s = 0 := by simp [writeFloor, hq]
      simp only [microStep, hq]
      split
      · exact .of_noWrite (countersOK_atWork rfl (by assumption)) (by omega) rfl
      · split
        · exact .of_noWrite (countersOK_atWork rfl hreset) (by omega) rfl
        · exact .of_noWrite (countersOK_idle rfl) (by omega) rfl
    | reset wp thenColour =>
      have floor : writeFloor s = wp := by simp [writeFloor, hq]
      have inReset : wp < s.cfg.resetBytes := hok
      simp only [microStep, hq]
      split
      · exact .of_write (countersOK_atWork rfl (by assumption)) floor (Nat.lt_succ_self wp) rfl
      · split
        · exact .of_write (countersOK_startLed 0 hc) floor
            ((writeFloor_startLed (s := writeFb wp 0#8 s) (Nat.zero_le _)).symm ▸ inReset) (startLed_fb 0 _)
        · exact .of_write (countersOK_idle rfl) floor (Nat.lt_of_lt_of_le inReset (resetBytes_le_fbBytes s.cfg)) rfl
    | packClr base color k wp =>
      have floor : writeFloor s = wp := by simp [writeFloor, hq]
      have slot : SlotOK s.cfg base k wp := hok
      simp only [microStep, hq]
      split
      · rename_i next
        obtain rfl := nextPair_pointer next
        exact .of_write (countersOK_atWork rfl (slotOK_next hc slot next)) floor (Nat.lt_succ_self wp) rfl
      · exact .of_write (countersOK_idle rfl) floor (slotOK_lt slot) rfl
    | packLed j color k wp =>
      have floor : writeFloor s = wp := by simp [writeFloor, hq]
      obtain ⟨hj, slot⟩ : j < s.cfg.N ∧ SlotOK s.cfg (s.cfg.ledBase j) k wp := hok
      simp only [microStep, hq]
      split
      · rename_i next
        obtain rfl := nextPair_pointer next
        exact .of_write (countersOK_atWork rfl ⟨hj, slotOK_next hc slot next⟩) floor (Nat.lt_succ_self wp) rfl
      · have slotEnd := slotOK_lt_slotEnd slot
        rw [← ledBase_succ] at slotEnd
        exact .of_write (countersOK_startLed (j + 1) hc) floor
          ((writeFloor_startLed (s := writeFb wp _ s) hj).symm ▸ slotEnd) (startLed_fb (j + 1) _)

theorem repeatOp_microStep_advance {s : State} (hc : s.cfg.CoreOK) (ok : CountersOK s) (n : Nat) :
    Advance s (repeatOp microStep n s) := by
  induction n with
  | zero => exact .refl ok
  | succ n ih =>
    rw [repeatOp_succ']
    exact ih.trans (microStep_advance (by rwa [(repeatOp_microStep_onlyCore n s).cfg]) ih.counters)

theorem repeatOp_microStep_idle {s : State} (h : s.seq = none) (n : Nat) : repeatOp microStep n s = s :=
  repeatOp_keeps (P := (· = s)) (fun _ ht => by rw [ht, microStep_idle h]) n rfl

theorem startOperation_fb (i : Instr) (s : State) : (startOperation i s).fb = s.fb := by
  obtain ⟨st, q, -, form⟩ := startOperation_form i s
  have started : startOperation i s = { s with status := st, seq := some q } := form s.inputs
  rw [started]

theorem countersOK_startOperation (i : Instr) {s : State} (hc : s.cfg.CoreOK) : CountersOK (startOperation i s) := by
  have ⟨_, _, _, hN, hreset, _⟩ := hc
  cases i with
  | packclr off color =>
    rw [startOperation]
    split
    · exact countersOK_atWork rfl (slotOK_first hc ((fitsBuffer_iff _ _).mp (by assumption)))
    · exact countersOK_atWork rfl trivial
  | packrst => exact countersOK_atWork rfl hreset
  | updmap offset => exact countersOK_atWork rfl hN
  | packfrm => exact countersOK_atWork rfl hreset
  | build offset => exact countersOK_atWork rfl hN
  | nop => exact countersOK_atWork rfl trivial
  | enc sym => exact countersOK_atWork rfl trivial
  | reserved7 => exact countersOK_atWork rfl trivial

/-- An operation leaves the sequencer as it found it. -/
theorem exec_seq {i : Instr} {s t : State} (run : exec i s = .next t) : t.seq = s.seq := by
  rw [exec_next run, complete_seq, effect_seq]

/-! ## A core reset (spec/70_reset_and_hazards.md R83, R84) -/

/-- What is on the command port after a step with a reset: at an edge what is presented there; the RESET action leaves
the port as it is. -/
def portAfterReset (e : Event) (v : Bool) (w : CmdWord) (n : Nat) (s : State) : Option CmdWord :=
  if e = .edge true v w n then (if v then some w else none) else s.offered

/-- An edge with `rst` and the RESET action differ in the command port only. -/
theorem step_reset {s : State} {v : Bool} {w : CmdWord} {n : Nat} {rest : List Event} {e : Event} (hc : s.cfg.CoreOK)
    (he : e = .edge true v w n ∨ e = .reset) (hin : s.inputs = e :: rest) :
    step s = .next (resetCore (holdPort (portAfterReset e v w n s) (takeEvent rest s))) := by
  rw [step_cons hc hin]
  rcases he with rfl | rfl
  · simp [handleEvent, clockEdge, leftOnPort, portAfterReset]
  · rfl

/-- What stood in `FB` and what the transfer held already are what it holds after a reset, in this order: it reads the
same at every address. -/
theorem xferByte_afterReset {x : Transfer} {fb : FrameBuf} (hwf : Memory.wf fb) (d : Nat) :
    xferByte { x with held := fb.foldl (fun m cell => memWrite m cell.1 cell.2) x.held } [] d = xferByte x fb d := by
  simp [xferByte, memRead_foldl_memWrite hwf]

theorem xferByte_written {x : Transfer} {fb : FrameBuf} {b : Byte}
    (h : memRead fb x.next = some b ∨ (memRead fb x.next = none ∧ memRead x.held x.next = some b)) (d : Nat) :
    xferByte x fb d = b := by
  rcases h with stands | ⟨unwritten, held⟩
  · simp [xferByte, stands]
  · simp [xferByte, unwritten, held]

/-! ## Submissions that stop the run (spec/70_reset_and_hazards.md R85, R86) -/

theorem transferCall_notReady {s : State} (h : s.busConfig = none ∨ s.busPin = none) (length : Nat) :
    transferCall length true s = .refused .transportNotReady := by
  rcases h with noBus | noPin
  · simp [transferCall, noBus]
  · cases hbus : s.busConfig <;> simp [transferCall, hbus, noPin]

/-- A transport that is set up makes the other three tests in this order. -/
theorem transferCall_setUp {s : State} {bus : BusConfig} {pin : Nat} (hbus : s.busConfig = some bus)
    (hpin : s.busPin = some pin) (length : Nat) :
    transferCall length true s =
      if s.xfer.isSome then .refused .transferPending
      else if bus.maxXfer < length then .refused .overlongTransfer
      else if s.cfg.fbBytes < length then .fault .noSuchFbAddress
      else .next (startTransfer length s) := by
  simp [transferCall, hbus, hpin]

end Sys2Proof.Machine

/-! ## The statements -/

namespace Sys2Proof

open Sys2Proof.Machine

/-- Settles O41: the write pointer only rises, so every byte has at most one write, and the operation's end comes after
every point of it. -/
theorem racingByteIsOldOrNew : Obligations.RacingByteIsOldOrNew := by
  intro i s t n a hc idle run
  have started : (startOperation i s).cfg.CoreOK := by rwa [(startOperation_onlyCore i s).cfg]
  have before := repeatOp_microStep_advance started (countersOK_startOperation i hc) n
  have after := repeatOp_microStep_advance (by rwa [(repeatOp_microStep_onlyCore n (startOperation i s)).cfg])
    before.counters (writeCount s.cfg i)
  have done : repeatOp microStep (writeCount s.cfg i) (startOperation i s) = t :=
    Host.Outcome.next.inj ((sequencerRefinesOperation i s hc idle).symm.trans run)
  rw [← repeatOp_add, Nat.add_comm, repeatOp_add, done, repeatOp_microStep_idle ((exec_seq run).trans idle)] at after
  have racing := before.old_or_new after a
  rwa [startOperation_fb] at racing

/-- Settles O47: the transfer takes over what stood in `FB`, on top of what it held already. -/
theorem resetLeavesTransferItsBytes : Obligations.ResetLeavesTransferItsBytes := by
  intro s x v w n rest e inv hx he hin
  have same (a d : Nat) := xferByte_afterReset (x := { x with next := a }) inv.fbWf d
  refine ⟨_, _, step_reset inv.config he hin, congrArg (Option.map _) hx, rfl, rfl, fun a b d written => ?_, same⟩
  exact (same a d).trans (xferByte_written (x := { x with next := a }) written d)

/-- Settles O46: both are `resetCore` on the state with the event taken off. -/
theorem resetWinsAtTheEdge : Obligations.ResetWinsAtTheEdge := by
  intro s v w n rest e hc he hin
  exact ⟨_, step_reset hc he hin, rfl, rfl, rfl, fun _ => rfl, fun _ => rfl, rfl, rfl, rfl, rfl, rfl, rfl, rfl, rfl,
    Option.isSome_map, rfl, rfl, rfl⟩

/-- Settles O56: the transport's tests in their order. -/
theorem submissionStops : Obligations.SubmissionStops := by
  intro s length rest hc
  rw [step_withInputs_cons hc]
  refine ⟨fun notReady =>
    transferCall_notReady (s := { s with inputs := rest, cmdDone := false }) notReady length,
    fun bus pin hbus hpin => ?_⟩
  have tests := transferCall_setUp (s := { s with inputs := rest, cmdDone := false }) hbus hpin length
  refine ⟨fun pending => ?_, fun free long => ?_, fun free short beyond => ?_⟩
  · exact tests.trans (if_pos (Option.isSome_iff_ne_none.mpr pending))
  · exact tests.trans ((if_neg (by simp [free])).trans (if_pos long))
  · exact tests.trans ((if_neg (by simp [free])).trans ((if_neg (Nat.not_lt.mpr short)).trans (if_pos beyond)))

end Sys2Proof
end

section
/-! SUPPORT. The written-out command words of spec/95_test_vectors.md V22. -/

namespace Sys2Proof

/-- Settles O4: each word is its operation's encoding, and so decodes back (O1). -/
theorem sampleCommandWords : Obligations.SampleCommandWords :=
  have decodes (i : Instr) : decodeTableWord 72 (encode i).toNat = some i := (decodeEncodeRoundTrip i).2
  ⟨decodes .nop, decodes (.enc 2#2), decodes .packrst, decodes (.packclr 32#32 0x00FF8000#32),
    decodes (.updmap 5#32), decodes .packfrm, decodes (.build 0xFFFFFFFF#32), decodes .reserved7⟩

end Sys2Proof
end
